-- ==== Sys2Proof/Word.lean ====
section
/-! DEFINITION. The words of the ShiftRegisterDriver controller (spec/00_scope.md rules R12, R13, R15): a `bit`
is a Bool (true = 1 = high), a `u8` a Byte, a `u16` an Index, a command or response word a Word. -/

namespace Sys2Proof

/-- `bit` of rule R15: a pin level or a stored bit; true is 1 (high), false is 0 (low). -/
abbrev Bit := Bool

/-- `u8` of rule R15: one buffer byte; bit b has weight 2^b (rule R13). -/
abbrev Byte := BitVec 8

/-- `u16` of rule R15: the IDX field of a command word. -/
abbrev Index := BitVec 16

/-- `u32` of rule R15: a command word or a response word (rule R12 (c)). -/
abbrev Word := BitVec 32

end Sys2Proof
end

