-- ==== Sys2Proof/Syntax.lean ====
section
/-! DEFINITION. The five commands (spec/00_scope.md rule R4), one constructor per row of spec/opcode_table.json.
The operands have the types of their fields (spec/30_encoding.md rules R63, R64). -/

namespace Sys2Proof

/-- A decoded command. -/
inductive Instr where
  /-- `SET idx, v`: stage one bit in the buffer (spec/40_output_path.md R80). -/
  | set (idx : Index) (v : Bit)
  /-- `WRITE idx, v`: stage one bit, then flush the whole buffer (R81). -/
  | write (idx : Index) (v : Bit)
  /-- `FLUSH`: send the whole buffer (R82). -/
  | flush
  /-- `REFRESH`: scan the whole input chain into the buffer (spec/41_input_path.md R101). -/
  | refresh
  /-- `READBIT idx`: return one buffer bit, refreshing first when the counter has run down (R106). -/
  | readbit (idx : Index)
  deriving DecidableEq, Repr

end Sys2Proof
end

