-- ==== Sys2Proof/Decode.lean ====
section
/-! DEFINITION. Decoding a command word, total on every word and refusing by name (spec/30_encoding.md rules R60 to
R68), and after it the encoder (rules R65, R73). -/

namespace Sys2Proof

/-- The ways in which a word is illegal, the four cases of rule R68. -/
inductive DecodeError where
  /-- (a) OP is 0x0 or in 0x6..0xF. -/
  | reservedOpcode
  /-- (b) RSV ≠ 0. -/
  | reservedBits
  /-- (c) OP is 0x3, 0x4 or 0x5 and V ≠ 0. -/
  | unusedValue
  /-- (d) OP is 0x3 or 0x4 and IDX ≠ 0. -/
  | unusedIndex
  deriving DecidableEq, Repr

/-- One row of the opcode map of rule R66. -/
structure OpcodeRow where
  mnemonic : String
  pattern  : Word
  mask     : Word
  command  : Word → Instr

/-- OP = cmd[31:28] (rule R61). -/
def opField (cmd : Word) : BitVec 4 := cmd.extractLsb' 28 4

/-- RSV = cmd[27:17] (rule R62). -/
def rsvField (cmd : Word) : BitVec 11 := cmd.extractLsb' 17 11

/-- V = cmd[16] (rule R64). -/
def valueField (cmd : Word) : Bit := cmd.getLsbD 16

/-- IDX = cmd[15:0] (rule R63). -/
def indexField (cmd : Word) : Index := cmd.extractLsb' 0 16

/-- The opcode map of rule R66. -/
def opcodeMap : List OpcodeRow := [
  ⟨"SET",     0x10000000#32, 0xFFFE0000#32, fun w => .set (indexField w) (valueField w)⟩,
  ⟨"WRITE",   0x20000000#32, 0xFFFE0000#32, fun w => .write (indexField w) (valueField w)⟩,
  ⟨"FLUSH",   0x30000000#32, 0xFFFFFFFF#32, fun _ => .flush⟩,
  ⟨"REFRESH", 0x40000000#32, 0xFFFFFFFF#32, fun _ => .refresh⟩,
  ⟨"READBIT", 0x50000000#32, 0xFFFF0000#32, fun w => .readbit (indexField w)⟩]

/-- Whether a word matches a row: `(cmd & r.mask) == r.match` of rule R67. -/
def OpcodeRow.hits (r : OpcodeRow) (cmd : Word) : Bool := cmd &&& r.mask == r.pattern

/-- The first of the four cases of rule R68 that holds of an illegal word; the spec gives all four one status, and only the
name of the refusal rests on the order (DESIGN CHOICE, safe, log 18). -/
def illegalReason (cmd : Word) : DecodeError :=
  if opField cmd = 0#4 ∨ 6#4 ≤ opField cmd then .reservedOpcode
  else if rsvField cmd ≠ 0#11 then .reservedBits
  else if 3#4 ≤ opField cmd ∧ valueField cmd then .unusedValue
  else .unusedIndex

/-- Rule R67: the command of the row that matches, or ILLEGAL. It reads the word alone. -/
def decode (cmd : Word) : Except DecodeError Instr :=
  match opcodeMap.find? (·.hits cmd) with
  | some r => .ok (r.command cmd)
  | none => .error (illegalReason cmd)

/-- The word of a command, laid out field by field as rule R65 gives its format. -/
def encode : Instr → Word
  | .set idx v   => 0x1#4 ++ 0#11 ++ BitVec.ofBool v ++ idx
  | .write idx v => 0x2#4 ++ 0#11 ++ BitVec.ofBool v ++ idx
  | .flush       => 0x3#4 ++ 0#11 ++ 0#1 ++ 0#16
  | .refresh     => 0x4#4 ++ 0#11 ++ 0#1 ++ 0#16
  | .readbit idx => 0x5#4 ++ 0#11 ++ 0#1 ++ idx

/-- The command the decoder reads from a table word of `nbits` bits, the bits above them zero; the host port carries
the word as one 32-bit unit (spec/20_memory.md R44). -/
def decodeTableWord (nbits w : Nat) : Option Instr :=
  match decode (BitVec.ofNat 32 (w % 2 ^ nbits)) with
  | .ok i => some i
  | .error _ => none

end Sys2Proof
end

