-- ==== Sys2Proof/Config.lean ====
section
/-! DEFINITION. What is fixed from outside: the configuration straps (spec/00_scope.md rules R8 to R10), the
parameter no rule reads (R11), and the one free value, the input oracle (spec/10_state.md rule R37). -/

namespace Sys2Proof

/-- MODE of rule R9: which of the two paths is valid. -/
inductive Mode where
  /-- Only the output path (SET, WRITE, FLUSH). -/
  | output
  /-- Only the input path (REFRESH, READBIT). -/
  | input
  /-- Both, with the direction of LATCH switched per command. -/
  | dual
  deriving DecidableEq, Repr

/-- SAMPLE_POINT of rule R10: where in a bit period of a scan LATCH is sampled. -/
inductive SamplePoint where
  /-- After the clock's high-then-low pulse of the bit. -/
  | afterFall
  /-- Between the high and the low drive of that pulse. -/
  | whileHigh
  /-- Before the pulse. -/
  | beforeRise
  deriving DecidableEq, Repr

/-- The configuration `(N, MODE, SAMPLE_POINT)`: straps taken at reset and held until the next reset
(spec/10_state.md R34, spec/70_reset_and_hazards.md R150). -/
structure Straps where
  /-- N, the number of daisy-chained 8-bit chips (rule R8). -/
  chainLength : Nat
  /-- MODE (rule R9). -/
  mode : Mode
  /-- SAMPLE_POINT (rule R10). -/
  samplePoint : SamplePoint
  deriving DecidableEq, Repr

/-- T_EVENT of rule R11, the minimum time between two pin events: a parameter left open, which the model never
reads (spec/70_reset_and_hazards.md R163; DEDUCED, unsafe for claims about time only, log 12). -/
opaque Config.tEvent : Nat

/-- The input oracle of rule R37, a FREE VALUE: `Config.oracle n` is the n-th draw a sample of LATCH takes. It has
no body, so a statement holds for every oracle (DESIGN CHOICE, safe, log 4). -/
opaque Config.oracle : Nat → Bit

end Sys2Proof
end

