-- ==== Sys2Proof/Machine/Pins.lean ====
section
/-! DEFINITION. The pin port: its three lines, what a line holds, and the events of the trace (spec/10_state.md rules
R25, R31). -/

namespace Sys2Proof.Machine

/-- The three lines of the pin port (rule R25). -/
inductive Pin where
  | data
  | clk
  | latch
  deriving DecidableEq, Repr

/-- The direction of a line (rule R25). -/
inductive Dir where
  /-- IN: the controller does not drive the line. -/
  | input
  /-- OUT: the controller drives the line. -/
  | output
  deriving DecidableEq, Repr

/-- One value for each line. -/
structure Pins (α : Type) where
  data  : α
  clk   : α
  latch : α
  deriving DecidableEq, Repr

/-- A pin event, one element of the trace (rule R31). -/
inductive Event where
  /-- `DRV(P, l)`: line P driven to level l. -/
  | drv (p : Pin) (l : Bit)
  /-- `DIR(P, d)`: line P set to direction d. -/
  | dir (p : Pin) (d : Dir)
  /-- `SMP(P, s)`: line P sampled, and the value read was s. -/
  | smp (p : Pin) (s : Bit)
  deriving DecidableEq, Repr

/-- The value of one line. -/
def Pins.get {α : Type} (v : Pins α) : Pin → α
  | .data => v.data
  | .clk => v.clk
  | .latch => v.latch

/-- The same lines with one line's value replaced. -/
def Pins.set {α : Type} (v : Pins α) (p : Pin) (x : α) : Pins α :=
  match p with
  | .data => { v with data := x }
  | .clk => { v with clk := x }
  | .latch => { v with latch := x }

end Sys2Proof.Machine
end

