-- ==== Sys2Proof/Machine/Reset.lean ====
section
/-! DEFINITION. The reset values of spec/10_state.md rule R38, each a definition of its own, and the straps the
model's reset state is built with (log 1). -/

namespace Sys2Proof.Machine

/-- R38: every buffer byte is 0x00 after reset; also what a byte the buffer's list does not name reads as. -/
def resetByte : Byte := 0x00#8

/-- R38: `cnt` is 0 after reset, so that the first READBIT refreshes. -/
def resetCount : BitVec 16 := 0#16

/-- R38: DATA and CLK are OUT after reset, and LATCH is IN exactly in MODE = INPUT. -/
def resetDirs (m : Mode) : Pins Dir :=
  { data := .output
    clk := .output
    latch := match m with
      | .output => .output
      | .input => .input
      | .dual => .output }

/-- R38: every driven level is 0 after reset. -/
def resetLevels : Pins Bit := { data := false, clk := false, latch := false }

/-- DESIGN CHOICE (log 1), unsafe: the straps `State.reset` is built with. The spec leaves N, MODE and SAMPLE_POINT to
the board; every statement is made for every legal value of them. -/
def resetStraps : Straps := { chainLength := 1, mode := .dual, samplePoint := .afterFall }

end Sys2Proof.Machine
end

