-- ==== Sys2Proof/Machine/State.lean ====
section
/-! DEFINITION. The controller's state (spec/10_state.md rule R20), the straps it holds (R34), the observation (R31;
spec/60_exceptions.md R143) and the model's own fields for its environment, all plain data; the reasons a step can
stop; and the state after reset (R38). -/

namespace Sys2Proof.Machine

/-- The buffer `buf` of rule R21 as a list of (byte index, byte), in the canonical form `Memory.wf`; a byte it does not
list holds the reset value 0x00 (rule R38; DEDUCED, safe, log 6). -/
abbrev Memory := List Host.Cell

/-- The canonical form: indices strictly rising, and no byte listed that reads the same unlisted. -/
abbrev Memory.wf (m : Memory) : Prop := m.Pairwise (·.1 < ·.1) ∧ ∀ c ∈ m, c.2 ≠ resetByte

/-- A move of the host (spec/60_exceptions.md R141; spec/70_reset_and_hazards.md R152). -/
inductive HostMove where
  /-- The host presents a command word to the idle controller and waits for its response. -/
  | command (cmd : Word)
  /-- The host resets the idle controller with these straps. -/
  | reset (straps : Straps)
  /-- The host presents a command word and resets the controller when it has emitted `emitted` of that command's
  events (all of them, where the command has no more). -/
  | resetDuring (cmd : Word) (emitted : Nat) (straps : Straps)
  deriving DecidableEq, Repr

/-- The observation of a run that a reset ended (rule R143). -/
structure Run where
  straps    : Straps
  responses : List Word
  trace     : List Event
  deriving DecidableEq, Repr

/-- The faults: none. The spec gives the controller no trap, halt or abort (spec/60_exceptions.md R120, R129), so
nothing raises one (log 10; safe: no behaviour is left out). -/
inductive Fault where
  deriving DecidableEq, Repr

/-- Why a step has no meaning. -/
inductive Refusal where
  /-- Raised by an arm of `exec` whose command has no meaning yet; no arm raises it now. Safe. -/
  | notModelled (mnemonic : String)
  /-- Raised by `step` for straps outside the ranges of rule R153, which have no run ("the model refuses it",
  decision D29; log 9). Safe: nothing is claimed of such a machine. -/
  | illegalConfiguration
  deriving DecidableEq, Repr

/-- The machine: the controller's own state (`buf`, `cnt`, `dir`, `lvl`), the straps it holds, the observation, and the
environment's data. -/
structure State where
  /-- N, MODE and SAMPLE_POINT as taken at the last reset (R34, R150). -/
  straps : Straps
  /-- `buf` (R21). -/
  buf : Memory
  /-- `cnt`, the read-refresh counter (R24). -/
  cnt : BitVec 16
  /-- `dir[P]` (R25 to R27). -/
  dir : Pins Dir
  /-- `lvl[P]` (R25, R28). -/
  lvl : Pins Bit
  /-- The trace of the run, oldest event first (R31). -/
  trace : List Event
  /-- The response words of the run, oldest first (R143). -/
  responses : List Word
  /-- The model's own: the runs that resets ended, oldest first (DESIGN CHOICE, safe, log 5). -/
  earlier : List Run
  /-- The model's own: the host's moves still to come (DESIGN CHOICE, safe, log 2). -/
  moves : List HostMove
  /-- The model's own: input bits injected ahead of the oracle (DESIGN CHOICE, safe, log 4). -/
  injected : List Bit
  /-- The model's own: how many samples have been drawn (DESIGN CHOICE, safe, log 4). -/
  draws : Nat
  deriving DecidableEq, Repr

/-- R38, R150: the controller after a reset that took the straps `c`, in an environment with nothing in it. -/
def State.afterReset (c : Straps) : State where
  straps    := c
  buf       := []
  cnt       := resetCount
  dir       := resetDirs c.mode
  lvl       := resetLevels
  trace     := []
  responses := []
  earlier   := []
  moves     := []
  injected  := []
  draws     := 0

/-- The machine right after reset, with the straps of log 1. -/
def State.reset : State := State.afterReset resetStraps

end Sys2Proof.Machine
end

