-- ==== Sys2Proof/Machine/Flags.lean ====
section
/-! DEFINITION. The controller has no flags and no condition codes (spec/10_state.md rule R32). What a command reports,
it reports in its response word: the status codes and the word's layout (spec/30_encoding.md rules R70, R71). -/

namespace Sys2Proof.Machine

/-- STATUS of rule R71. -/
inductive Status where
  /-- The command ran to completion. -/
  | ok
  /-- IDX ≥ 8N (spec/60_exceptions.md R123). -/
  | errRange
  /-- The command is not valid in the configured MODE (R122). -/
  | errMode
  /-- The command word is illegal (R121). -/
  | errIllegal
  deriving DecidableEq, Repr

/-- The two-bit code of a status (R71). -/
def Status.code : Status → BitVec 2
  | .ok => 0#2
  | .errRange => 1#2
  | .errMode => 2#2
  | .errIllegal => 3#2

/-- R70: the response word, RDATA in bit 8, STATUS in bits 1:0, every other bit zero. -/
def responseWord (st : Status) (rdata : Bit) : Word :=
  (BitVec.ofBool rdata ++ 0#6 ++ st.code).setWidth 32

end Sys2Proof.Machine
end

