-- ==== Sys2Proof/Machine/Operands.lean ====
section
/-! DEFINITION. Operand forms: the index operand and its decomposition (spec/30_encoding.md rule R72; spec/00_scope.md
rule R14), the buffer's bits, and the range check (spec/60_exceptions.md R123). -/

namespace Sys2Proof.Machine

/-- R72: the index operand, `p = zext(IDX)`: no sign, no scale, no offset. -/
def pinIndex (idx : Index) : Nat := idx.toNat

/-- R14: the buffer byte of logical index p, `floor(p / 8)`. -/
def byteOf (p : Nat) : Nat := p / 8

/-- R14: the bit of that byte, `p mod 8`. -/
def bitOf (p : Nat) : Nat := p % 8

/-- The byte at index `a` of the buffer: the listed one, or the value a byte that is not listed holds (log 6). -/
def Memory.read (m : Memory) (a : Nat) : Byte :=
  match m with
  | [] => resetByte
  | (i, b) :: rest => if i = a then b else Memory.read rest a

/-- Put a byte at index `a`, keeping the canonical form: a byte that reads the same unlisted is not listed. -/
def Memory.write (m : Memory) (a : Nat) (b : Byte) : Memory :=
  match m with
  | [] => if b = resetByte then [] else [(a, b)]
  | (i, c) :: rest =>
    if a < i then
      if b = resetByte then (i, c) :: rest else (a, b) :: (i, c) :: rest
    else if a = i then
      if b = resetByte then rest else (a, b) :: rest
    else (i, c) :: Memory.write rest a b

/-- R46: bit k of a byte replaced, `(old & ~(1 << k)) | (v << k)`. -/
def byteWithBit (old : Byte) (k : Nat) (v : Bit) : Byte :=
  (old &&& ~~~(1#8 <<< k)) ||| ((BitVec.ofBool v).setWidth 8 <<< k)

/-- `buf[i][k]` (spec/00_scope.md R16). -/
def Memory.bit (m : Memory) (i k : Nat) : Bit := (m.read i).getLsbD k

/-- `buf[i][k] <- v`, the read-modify-write of one byte of R46. -/
def Memory.withBit (m : Memory) (i k : Nat) (v : Bit) : Memory := m.write i (byteWithBit (m.read i) k v)

/-- The buffer bit of logical index p, `buf[p >> 3][p & 7]` (R14, R21). -/
def State.indexBit (s : State) (p : Nat) : Bit := s.buf.bit (byteOf p) (bitOf p)

/-- `buf[p >> 3][p & 7] <- v`. -/
def State.setIndexBit (p : Nat) (v : Bit) (s : State) : State :=
  { s with buf := s.buf.withBit (byteOf p) (bitOf p) v }

/-- R123: whether an index is in range, p < 8N. -/
def State.inRange (s : State) (idx : Index) : Bool := decide (pinIndex idx < 8 * s.straps.chainLength)

end Sys2Proof.Machine
end

