-- ==== Sys2Proof/WellFormed.lean ====
section
/-! DEFINITION. What must be well formed before the controller runs: the straps (spec/70_reset_and_hazards.md rule
R153). A command needs no check of its own: the types of `Instr`'s operands are the widths of their fields, so every
term of `Instr` is a command that a word encodes. An index outside the chain is no ill-formed command but a command
that answers ERR_RANGE (spec/60_exceptions.md R123); an operand too wide for its field can be written only in
assembler text, and there `AsmLine.assemble` refuses it. -/

namespace Sys2Proof

/-- Rule R153: the straps are legal when 1 ≤ N ≤ 8191; MODE and SAMPLE_POINT are legal by their types. -/
def Straps.legal (c : Straps) : Bool := decide (1 ≤ c.chainLength ∧ c.chainLength ≤ 8191)

end Sys2Proof
end

