-- ==== Sys2Proof/Machine/Ops.lean ====
section
/-! DEFINITION. The named operations: the pin primitives and the input oracle (spec/00_scope.md rule R17;
spec/10_state.md R37), the response and the raising of an error, which is all the exception there is
(spec/00_scope.md R18; spec/60_exceptions.md R120, R129), the mode checks (R122), and reset
(spec/70_reset_and_hazards.md R150). -/

namespace Sys2Proof.Machine

/-- `Drive(P, l)` of R17. -/
def State.drive (p : Pin) (l : Bit) (s : State) : State :=
  { s with lvl := s.lvl.set p l, trace := s.trace ++ [.drv p l] }

/-- `SetDir(P, d)` of R17. -/
def State.setDir (p : Pin) (d : Dir) (s : State) : State :=
  { s with dir := s.dir.set p d, trace := s.trace ++ [.dir p d] }

/-- `Pulse(P)` of R17: high, then low. -/
def State.pulse (p : Pin) (s : State) : State := (s.drive p true).drive p false

/-- `inbits[t]` of R37: the t-th draw still to come, injected by the test bench or free (log 4). -/
def State.inbit (s : State) (t : Nat) : Bit :=
  match s.injected[t]? with
  | some b => b
  | none => Config.oracle (s.draws + t)

/-- `n` draws taken from the oracle. -/
def State.takeDraws (n : Nat) (s : State) : State :=
  { s with injected := s.injected.drop n, draws := s.draws + n }

/-- `Sample(P)` of R17: the next draw, and the state after the sample. -/
def State.sample (p : Pin) (s : State) : Bit × State :=
  (s.inbit 0, s.takeDraws 1 |> fun t => { t with trace := t.trace ++ [.smp p (s.inbit 0)] })

/-- The command's one response word, which ends it (R18; spec/30_encoding.md R70). -/
def State.answer (st : Status) (rdata : Bit) (s : State) : State :=
  { s with responses := s.responses ++ [responseWord st rdata] }

/-- `respond(OK, rdata)` of R18. -/
def respondOk (rdata : Bit) (s : State) : Host.Outcome State Fault Refusal := .next (s.answer .ok rdata)

/-- `raise E` of R18: the command ends with status E, having changed nothing but the response (R125). The controller
saves nothing, changes no mode and jumps nowhere (R129), and there is nothing to return from (R130). -/
def raise (st : Status) (s : State) : Host.Outcome State Fault Refusal := .next (s.answer st false)

/-- R122: the modes in which the output path (SET, WRITE, FLUSH) is valid. -/
def acceptsOutput : Mode → Bool
  | .output => true
  | .input => false
  | .dual => true

/-- R122: the modes in which the input path (REFRESH, READBIT) is valid. -/
def acceptsInput : Mode → Bool
  | .output => false
  | .input => true
  | .dual => true

/-- R150: a reset that takes the straps `c`. The controller goes to its reset state and starts a new, empty trace; the
run so far joins the earlier ones, and the environment goes on. Straps outside the legal ranges have no run (R153). -/
def resetWith (c : Straps) (s : State) : Host.Outcome State Fault Refusal :=
  if c.legal then
    .next { State.afterReset c with
      earlier := s.earlier ++ [{ straps := s.straps, responses := s.responses, trace := s.trace }]
      moves := s.moves
      injected := s.injected
      draws := s.draws }
  else .refused .illegalConfiguration

end Sys2Proof.Machine
end

