-- ==== Sys2Proof/Machine/OutputPath.lean ====
section
/-! DEFINITION. The output path: the shared sequences ShiftOutByte and Flush, and the meanings of SET, WRITE and FLUSH
(spec/40_output_path.md rules R80 to R84). -/

namespace Sys2Proof.Machine

/-- The bit numbers 7 down to 0, the order of `for k in 7..0 step -1`. -/
def bitsDown : List Nat := [7, 6, 5, 4, 3, 2, 1, 0]

/-- `Drive(DATA, l); Pulse(CLK)`, one bit period of ShiftOutByte. -/
def State.shiftOutBit (l : Bit) (s : State) : State := (s.drive .data l).pulse .clk

/-- R83: send one byte most-significant bit first. -/
def State.shiftOutByte (b : Byte) (s : State) : State :=
  bitsDown.foldl (fun s k => s.shiftOutBit (b.getLsbD k)) s

/-- Step (2) of R84: every byte of the buffer, byte 0 first. -/
def State.shiftOutBuffer (s : State) : State :=
  (List.range s.straps.chainLength).foldl (fun s i => s.shiftOutByte (s.buf.read i)) s

/-- R84: in MODE = DUAL the latch line is first made an output. -/
def State.latchOut (s : State) : State :=
  match s.straps.mode with
  | .dual => s.setDir .latch .output
  | .output => s
  | .input => s

/-- R84: `Flush()`. -/
def State.flush (s : State) : State :=
  ((s.latchOut.drive .clk false).shiftOutBuffer).pulse .latch

/-- R80: SET. -/
def execSet (idx : Index) (v : Bit) (s : State) : Host.Outcome State Fault Refusal :=
  if !(acceptsOutput s.straps.mode) then raise .errMode s
  else if !(s.inRange idx) then raise .errRange s
  else respondOk false (s.setIndexBit (pinIndex idx) v)

/-- R81: WRITE. -/
def execWrite (idx : Index) (v : Bit) (s : State) : Host.Outcome State Fault Refusal :=
  if !(acceptsOutput s.straps.mode) then raise .errMode s
  else if !(s.inRange idx) then raise .errRange s
  else respondOk false (s.setIndexBit (pinIndex idx) v).flush

/-- R82: FLUSH. -/
def execFlush (s : State) : Host.Outcome State Fault Refusal :=
  if !(acceptsOutput s.straps.mode) then raise .errMode s
  else respondOk false s.flush

end Sys2Proof.Machine
end

