-- ==== Sys2Proof/Machine/InputPath.lean ====
section
/-! DEFINITION. The input path: the shared sequences ScanBit and Refresh, and the meanings of REFRESH and READBIT
(spec/41_input_path.md rules R100 to R106). -/

namespace Sys2Proof.Machine

/-- R102: one bit period of a scan, one CLK pulse and one sample of LATCH, where SAMPLE_POINT puts it. -/
def State.scanBit (s : State) : Bit × State :=
  match s.straps.samplePoint with
  | .afterFall => ((s.drive .clk true).drive .clk false).sample .latch
  | .whileHigh =>
    let r := (s.drive .clk true).sample .latch
    (r.1, r.2.drive .clk false)
  | .beforeRise =>
    let r := s.sample .latch
    (r.1, (r.2.drive .clk true).drive .clk false)

/-- `s <- ScanBit(); buf[i][k] <- s` of R100. -/
def State.scanInto (i k : Nat) (s : State) : State :=
  let r := s.scanBit
  { r.2 with buf := r.2.buf.withBit i k r.1 }

/-- The inner loop of R100: one byte, most-significant bit first. -/
def State.scanByte (i : Nat) (s : State) : State := bitsDown.foldl (fun s k => s.scanInto i k) s

/-- The outer loop of R100: every byte, byte 0 first. -/
def State.scanBuffer (s : State) : State :=
  (List.range s.straps.chainLength).foldl (fun s i => s.scanByte i) s

/-- R100: in MODE = DUAL the latch line is first made an input. -/
def State.latchIn (s : State) : State :=
  match s.straps.mode with
  | .dual => s.setDir .latch .input
  | .output => s
  | .input => s

/-- R100: `Refresh()`. -/
def State.refresh (s : State) : State :=
  (((s.latchIn.drive .clk false).pulse .data).scanBuffer).pulse .clk

/-- R101: REFRESH. -/
def execRefresh (s : State) : Host.Outcome State Fault Refusal :=
  if !(acceptsInput s.straps.mode) then raise .errMode s
  else respondOk false s.refresh

/-- R106: the counter policy, refreshing and restarting the count at `(N << 3) - 1` when it has run down, counting
down otherwise. The arithmetic is unsigned and 16 bits wide (R105). -/
def State.countRead (s : State) : State :=
  if s.cnt = 0#16 then
    { s.refresh with cnt := (BitVec.ofNat 16 s.straps.chainLength <<< 3) - 1#16 }
  else { s with cnt := s.cnt - 1#16 }

/-- R106: READBIT. -/
def execReadbit (idx : Index) (s : State) : Host.Outcome State Fault Refusal :=
  if !(acceptsInput s.straps.mode) then raise .errMode s
  else if !(s.inRange idx) then raise .errRange s
  else respondOk (s.countRead.indexBit (pinIndex idx)) s.countRead

end Sys2Proof.Machine
end

