-- ==== Sys2Proof/Machine/Dispatch.lean ====
section
/-! DEFINITION. The dispatch: one arm per command. -/

namespace Sys2Proof.Machine

/-- What a decoded command does (spec/60_exceptions.md R139: one step per command). -/
def exec (i : Instr) (s : State) : Host.Outcome State Fault Refusal :=
  match i with
  | .set idx v => Sys2Proof.Machine.execSet idx v s
  | .write idx v => Sys2Proof.Machine.execWrite idx v s
  | .flush => Sys2Proof.Machine.execFlush s
  | .refresh => Sys2Proof.Machine.execRefresh s
  | .readbit idx => Sys2Proof.Machine.execReadbit idx s

end Sys2Proof.Machine
end

