-- ==== Sys2Proof/Machine/HostPort.lean ====
section
/-! DEFINITION. The host port: a command word run to its response (spec/60_exceptions.md rules R121, R140), and a reset
that arrives while a command runs (spec/70_reset_and_hazards.md rule R152). -/

namespace Sys2Proof.Machine

/-- R121, R140: a command word, decoded and run to completion; an illegal word answers ERR_ILLEGAL. -/
def runWord (cmd : Word) (s : State) : Host.Outcome State Fault Refusal :=
  match decode cmd with
  | .ok i => exec i s
  | .error _ => raise .errIllegal s

/-- Whether an event took a draw from the oracle. -/
def Event.isSample : Event → Bool
  | .drv _ _ => false
  | .dir _ _ => false
  | .smp _ _ => true

/-- R152: what stands of a command that a reset cuts after its first `emitted` events, when the whole command would
have ended in `done`: those events, the draws they took, and no response (DEDUCED, safe, log 8). -/
def State.cutShort (s done : State) (emitted : Nat) : State :=
  let shown := (done.trace.drop s.trace.length).take emitted
  { s.takeDraws (shown.countP Event.isSample) with trace := s.trace ++ shown }

/-- R152: a reset that takes the straps `c` while the command `cmd` runs. -/
def resetDuring (cmd : Word) (emitted : Nat) (c : Straps) (s : State) : Host.Outcome State Fault Refusal :=
  match runWord cmd s with
  | .next done => resetWith c (s.cutShort done emitted)
  | .fault r => .fault r
  | .refused r => .refused r

/-- The next move of the host, in the state without that move; with no move the controller stays idle, and all of its
state survives (spec/60_exceptions.md R134, R143; DEDUCED, safe, log 3). -/
def nextMove (s : State) : Host.Outcome State Fault Refusal :=
  match s.moves with
  | [] => .next s
  | .command cmd :: rest => runWord cmd { s with moves := rest }
  | .reset c :: rest => resetWith c { s with moves := rest }
  | .resetDuring cmd emitted c :: rest => resetDuring cmd emitted c { s with moves := rest }

/-- The host's next move is the command word `cmd` (log 2). -/
def State.present (cmd : Word) (s : State) : State := { s with moves := .command cmd :: s.moves }

end Sys2Proof.Machine
end

