-- ==== Sys2Proof/Machine/Step.lean ====
section
/-! DEFINITION. One step: the host's next move, taken whole (spec/20_memory.md rule R48; spec/60_exceptions.md R139). -/

namespace Sys2Proof.Machine

/-- Straps outside the legal ranges have no run (spec/70_reset_and_hazards.md R153); otherwise the host's next move. One
command is one step, and no position inside a command is state (DEDUCED, safe, log 7). -/
def step (s : State) : Host.Outcome State Fault Refusal :=
  if s.straps.legal then nextMove s else .refused .illegalConfiguration

/-- The state in which the host presents the table word `w` of `nbits` bits next. -/
def State.withFetchWord (s : State) (nbits w : Nat) : State := s.present (BitVec.ofNat 32 (w % 2 ^ nbits))

end Sys2Proof.Machine
end

