-- ==== Sys2Proof/Machine/Assembler.lean ====
section
/-! DEFINITION. Assembler syntax and pseudo-instructions (spec/30_encoding.md rules R73, R74): the host's notation for
command words. The controller itself sees only the words. -/

namespace Sys2Proof.Machine

/-- A line of assembler text, read: its operands are the numbers written, of any size. -/
inductive AsmLine where
  | set (idx v : Nat)
  | write (idx v : Nat)
  | flush
  | refresh
  | readbit (idx : Nat)
  /-- `CLR idx`, a pseudo-instruction of R74. -/
  | clr (idx : Nat)
  /-- `SETB idx`. -/
  | setb (idx : Nat)
  /-- `COMMIT`. -/
  | commit
  /-- `SCAN`. -/
  | scan
  deriving DecidableEq, Repr

/-- The operand `v` of R73: 0 or 1. -/
def asmValue : Nat → Option Bit
  | 0 => some false
  | 1 => some true
  | _ + 2 => none

/-- The operand `idx` of R73: 0..65535. It may be 8N or more; such a command fails when it runs. -/
def asmIndex (idx : Nat) : Option Index := if idx ≤ 65535 then some (BitVec.ofNat 16 idx) else none

/-- The command of a line, refused where an operand is outside its range (R73); a pseudo-instruction is exactly one
command (R74). -/
def AsmLine.command : AsmLine → Option Instr
  | .set idx v => (asmIndex idx).bind fun i => (asmValue v).map fun b => .set i b
  | .write idx v => (asmIndex idx).bind fun i => (asmValue v).map fun b => .write i b
  | .flush => some .flush
  | .refresh => some .refresh
  | .readbit idx => (asmIndex idx).map .readbit
  | .clr idx => (asmIndex idx).map (.set · false)
  | .setb idx => (asmIndex idx).map (.set · true)
  | .commit => some .flush
  | .scan => some .refresh

/-- R73: the command word a line stands for. -/
def AsmLine.assemble (line : AsmLine) : Option Word := line.command.map encode

/-- The value of a decimal digit. -/
def decimalDigit (c : Char) : Option Nat := if '0' ≤ c ∧ c ≤ '9' then some (c.toNat - '0'.toNat) else none

/-- The value of a hex digit, in either case (DESIGN CHOICE, safe, log 16). -/
def hexDigit (c : Char) : Option Nat :=
  if '0' ≤ c ∧ c ≤ '9' then some (c.toNat - '0'.toNat)
  else if 'a' ≤ c ∧ c ≤ 'f' then some (c.toNat - 'a'.toNat + 10)
  else if 'A' ≤ c ∧ c ≤ 'F' then some (c.toNat - 'A'.toNat + 10)
  else none

/-- The digits of a number in a base, most significant first, after the value `acc` of those already read. -/
def readDigits (base : Nat) (digit : Char → Option Nat) : Nat → List Char → Option Nat
  | acc, [] => some acc
  | acc, c :: rest =>
    match digit c with
    | some d => readDigits base digit (acc * base + d) rest
    | none => none

/-- A decimal or `0x` hex integer (R73). Leading zeros are read, and the hex mark is a lower-case `x` (DESIGN CHOICE, safe,
log 16). -/
def readNumber : List Char → Option Nat
  | '0' :: 'x' :: c :: rest => readDigits 16 hexDigit 0 (c :: rest)
  | c :: rest => readDigits 10 decimalDigit 0 (c :: rest)
  | [] => none

/-- The words of a line: runs of characters between blanks, each comma a word of its own (DESIGN CHOICE, safe, log 16). -/
def asmWords : List Char → List Char → List (List Char)
  | word, [] => if word = [] then [] else [word]
  | word, c :: rest =>
    if c = ' ' then (if word = [] then asmWords [] rest else word :: asmWords [] rest)
    else if c = ',' then (if word = [] then [','] :: asmWords [] rest else word :: [','] :: asmWords [] rest)
    else asmWords (word ++ [c]) rest

/-- A line of assembler text, read (R73, R74): a mnemonic in upper case, then its operands, separated by a comma. R73 gives
the number forms of `idx` only; the operand `v` is written in the same forms (DESIGN CHOICE, safe, log 16). -/
def readLine (text : List Char) : Option AsmLine :=
  match asmWords [] text with
  | [['F', 'L', 'U', 'S', 'H']] => some .flush
  | [['R', 'E', 'F', 'R', 'E', 'S', 'H']] => some .refresh
  | [['C', 'O', 'M', 'M', 'I', 'T']] => some .commit
  | [['S', 'C', 'A', 'N']] => some .scan
  | [['R', 'E', 'A', 'D', 'B', 'I', 'T'], idx] => (readNumber idx).map .readbit
  | [['C', 'L', 'R'], idx] => (readNumber idx).map .clr
  | [['S', 'E', 'T', 'B'], idx] => (readNumber idx).map .setb
  | [['S', 'E', 'T'], idx, [','], v] => (readNumber idx).bind fun i => (readNumber v).map fun b => .set i b
  | [['W', 'R', 'I', 'T', 'E'], idx, [','], v] => (readNumber idx).bind fun i => (readNumber v).map fun b => .write i b
  | _ => none

/-- The command word of a line of assembler text. -/
def assembleText (text : String) : Option Word := (readLine text.toList).bind AsmLine.assemble

end Sys2Proof.Machine
end

