-- ==== Sys2Proof/Machine/OutputChain.lean ====
section
/-! DEFINITION. The lines as the trace leaves them (spec/10_state.md rules R25, R28, R31), and the reference output chain
of spec/60_exceptions.md rule R136, which is informative, no part of the controller, and used only to state R137. -/

namespace Sys2Proof.Machine

/-- The direction and the driven level of every line. -/
structure Lines where
  dir : Pins Dir
  lvl : Pins Bit
  deriving DecidableEq, Repr

/-- The lines after one event. -/
def Lines.after (l : Lines) : Event → Lines
  | .drv p v => { l with lvl := l.lvl.set p v }
  | .dir p d => { l with dir := l.dir.set p d }
  | .smp _ _ => l

/-- The lines after a list of events, oldest first. -/
def Lines.afterAll (l : Lines) (es : List Event) : Lines := es.foldl Lines.after l

/-- The lines of a controller. -/
def State.lines (s : State) : Lines := { dir := s.dir, lvl := s.lvl }

/-- The reference output chain: `shift` is `C[0..8N-1]`, `out` is `Q[0..8N-1]`; chain position j holds `C[8j..8j+7]`. -/
structure Chain where
  shift : List Bit
  out   : List Bit
  deriving DecidableEq, Repr

/-- R136: what the chain does on one event, `l` being the lines before it. On the rising CLK edge the shift stage
advances and takes in the DATA level; on the rising LATCH edge, with LATCH driven, the output stage loads. The level
before an event is the driven level (DEDUCED, log 13). -/
def Chain.react (c : Chain) (l : Lines) : Event → Chain
  | .drv .clk true => if l.lvl.clk = false then { c with shift := l.lvl.data :: c.shift.dropLast } else c
  | .drv .latch true => if l.lvl.latch = false ∧ l.dir.latch = .output then { c with out := c.shift } else c
  | .drv .clk false => c
  | .drv .latch false => c
  | .drv .data _ => c
  | .dir _ _ => c
  | .smp _ _ => c

/-- The chain after a list of events, `l` being the lines before the first. -/
def Chain.run (l : Lines) (c : Chain) : List Event → Chain
  | [] => c
  | e :: es => Chain.run (l.after e) (c.react l e) es

end Sys2Proof.Machine
end

