-- ==== Sys2Proof/Safety.lean ====
section
/-! DEFINITION. The terms the statements use: the event sequences of the spec's tables (spec/40_output_path.md R85,
spec/41_input_path.md R103), the table of modes (spec/60_exceptions.md R122), what a sequence of events must obey
(spec/70_reset_and_hazards.md R156), and the invariants of spec/10_state.md R39. None of these is used by `step`. -/

namespace Sys2Proof.Machine

/-- R42: the t-th DATA value of a flush, `buf[t >> 3][7 - (t & 7)]`. -/
def serialOut (buf : Memory) (t : Nat) : Bit := buf.bit (t / 8) (7 - t % 8)

/-- One bit period of the output path (R83). -/
def outPeriod (l : Bit) : List Event := [.drv .data l, .drv .clk true, .drv .clk false]

/-- R85: Flush's events, in order. -/
def flushEvents (c : Straps) (buf : Memory) : List Event :=
  (if c.mode = .dual then [.dir .latch .output] else []) ++
  [.drv .clk false] ++
  (List.range (8 * c.chainLength)).flatMap (fun t => outPeriod (serialOut buf t)) ++
  [.drv .latch true, .drv .latch false]

/-- One bit period of the input path, in which the value `s` is sampled (R102). -/
def scanPeriod (sp : SamplePoint) (s : Bit) : List Event :=
  match sp with
  | .afterFall => [.drv .clk true, .drv .clk false, .smp .latch s]
  | .whileHigh => [.drv .clk true, .smp .latch s, .drv .clk false]
  | .beforeRise => [.smp .latch s, .drv .clk true, .drv .clk false]

/-- R103: Refresh's events, in order, `inbits t` being the t-th draw. -/
def refreshEvents (c : Straps) (inbits : Nat → Bit) : List Event :=
  (if c.mode = .dual then [.dir .latch .input] else []) ++
  [.drv .clk false] ++
  [.drv .data true, .drv .data false] ++
  (List.range (8 * c.chainLength)).flatMap (fun t => scanPeriod c.samplePoint (inbits t)) ++
  [.drv .clk true, .drv .clk false]

/-- The table of R122, entry by entry: whether a mode accepts a command. -/
def modeTable : Instr → Mode → Bool
  | .set _ _,   .output => true
  | .set _ _,   .input  => false
  | .set _ _,   .dual   => true
  | .write _ _, .output => true
  | .write _ _, .input  => false
  | .write _ _, .dual   => true
  | .flush,     .output => true
  | .flush,     .input  => false
  | .flush,     .dual   => true
  | .refresh,   .output => false
  | .refresh,   .input  => true
  | .refresh,   .dual   => true
  | .readbit _, .output => false
  | .readbit _, .input  => true
  | .readbit _, .dual   => true

/-- The index operand of the commands that carry one (R72). -/
def Instr.index? : Instr → Option Index
  | .set idx _ => some idx
  | .write idx _ => some idx
  | .flush => none
  | .refresh => none
  | .readbit idx => some idx

/-- Whether a command's index, if it has one, is in 0..8N-1. -/
def Instr.indexFits (i : Instr) (n : Nat) : Prop := ∀ idx ∈ Instr.index? i, idx.toNat < 8 * n

/-- Whether a command is a READBIT. -/
def Instr.isRead : Instr → Bool
  | .set _ _ => false
  | .write _ _ => false
  | .flush => false
  | .refresh => false
  | .readbit _ => true

/-- A sequence of commands, run one after the other. -/
def execAll : List Instr → State → Host.Outcome State Fault Refusal
  | [], s => .next s
  | i :: is, s =>
    match exec i s with
    | .next t => execAll is t
    | .fault r => .fault r
    | .refused r => .refused r

/-- The level a DATA drive drives. -/
def Event.dataLevel? : Event → Option Bit
  | .drv .data l => some l
  | .drv .clk _ => none
  | .drv .latch _ => none
  | .dir _ _ => none
  | .smp _ _ => none

/-- The value a sample read. -/
def Event.sampled? : Event → Option Bit
  | .drv _ _ => none
  | .dir _ _ => none
  | .smp _ s => some s

/-- The values of the DATA drives in a list of events, in order: its "DATA string". -/
def dataValues (es : List Event) : List Bit := es.filterMap Event.dataLevel?

/-- The values sampled in a list of events, in order. -/
def sampledValues (es : List Event) : List Bit := es.filterMap Event.sampled?

/-- Eight bits read as a byte, most-significant bit first. -/
def msbFirst (bits : List Bit) : Byte := bits.foldl (fun b l => b <<< 1 ||| (BitVec.ofBool l).setWidth 8) 0#8

/-- R156: a line is driven only while its direction is OUT and sampled only while it is IN, `d` being the directions
before the first event. -/
def obeysDirections (d : Pins Dir) : List Event → Bool
  | [] => true
  | .drv p _ :: es => decide (d.get p = .output) && obeysDirections d es
  | .smp p _ :: es => decide (d.get p = .input) && obeysDirections d es
  | .dir p x :: es => obeysDirections (d.set p x) es

/-- The lines at reset (R38), where a trace begins. -/
def resetLines (c : Straps) : Lines := { dir := resetDirs c.mode, lvl := resetLevels }

/-- R27, R39 (e): the directions of LATCH a mode allows. -/
def latchDirAllowed : Mode → Dir → Prop
  | .output, d => d = .output
  | .input, d => d = .input
  | .dual, _ => True

/-- Whether the last event of a trace is the last event of a refresh, `DRV(CLK, 0)`, and not that of a flush,
`DRV(LATCH, 0)`: whether the last command that emitted events was a refresh (log 17). -/
def endsWithRefresh (trace : List Event) : Prop := trace.getLast? = some (.drv .clk false)

/-- What holds between any two commands (R39), with the straps in their ranges (R153), the buffer in its canonical form
over bytes 0..N-1 (R21; log 6), and the counter untouched in MODE = OUTPUT (R24). -/
structure State.Inv (s : State) : Prop where
  straps_legal : s.straps.legal = true
  buf_wf : s.buf.wf
  buf_within : ∀ c ∈ s.buf, c.1 < s.straps.chainLength
  clk_low : s.lvl.clk = false
  latch_low : s.lvl.latch = false
  cnt_lt : s.cnt.toNat < 8 * s.straps.chainLength
  data_out : s.dir.data = .output
  clk_out : s.dir.clk = .output
  latch_dir : latchDirAllowed s.straps.mode s.dir.latch
  dual_latch : s.straps.mode = .dual → (s.dir.latch = .input ↔ endsWithRefresh s.trace)
  output_cnt : s.straps.mode = .output → s.cnt = 0#16

/-- The lines are what the trace's events leave, the trace obeys the directions (R156), and so does the trace of every
run that a reset ended, cut short or not (R152). -/
structure State.TraceInv (s : State) : Prop where
  lines_follow : (resetLines s.straps).afterAll s.trace = s.lines
  obeys : obeysDirections (resetDirs s.straps.mode) s.trace = true
  earlier_obey : ∀ r ∈ s.earlier, obeysDirections (resetDirs r.straps.mode) r.trace = true

end Sys2Proof.Machine
end

