-- ==== Sys2Proof/Certificates/Slice0/Obligations.lean ====
section
/-! DEFINITION. The statements for the provers. Each docstring names the rule it formalises. -/

open Sys2Proof Sys2Proof.Machine

/-! ### Encoding (spec/30_encoding.md) -/

/-- Every command, with every operand value its encoding admits, is read back from its word (R65, R66, R67). -/
def Obligations.DecodeInvertsEncode : Prop := ∀ i : Instr, decode (encode i) = .ok i

/-- A word that decodes is the one word of its command: no bit of a legal word is ignored (R65, R67, R68). -/
def Obligations.EncodeInvertsDecode : Prop := ∀ (w : Word) (i : Instr), decode w = .ok i → encode i = w

/-- Words written out from the opcode map, one or more of each command, and words of each illegal case
(spec/95_test_vectors.md section 3). -/
def Obligations.ExampleWordsDecode : Prop :=
  decode 0x10010007#32 = .ok (.set 7#16 true) ∧
  decode 0x1001FFFF#32 = .ok (.set 0xFFFF#16 true) ∧
  decode 0x20010007#32 = .ok (.write 7#16 true) ∧
  decode 0x20000008#32 = .ok (.write 8#16 false) ∧
  decode 0x30000000#32 = .ok .flush ∧
  decode 0x40000000#32 = .ok .refresh ∧
  decode 0x50000007#32 = .ok (.readbit 7#16) ∧
  decode 0x00000000#32 = .error .reservedOpcode ∧
  decode 0x60000000#32 = .error .reservedOpcode ∧
  decode 0x10020000#32 = .error .reservedBits ∧
  decode 0x50010000#32 = .error .unusedValue ∧
  decode 0x3000FFFF#32 = .error .unusedIndex

/-- R68: a word is illegal exactly when one of (a) to (d) holds of its fields, here read off the number; and an illegal
word completes with ERR_ILLEGAL, writes no state and emits no event. -/
def Obligations.IllegalWordsAreExactlyThese : Prop :=
  ∀ w : Word,
    ((∃ e, decode w = .error e) ↔
      (w.toNat / 2 ^ 28 = 0 ∨ 6 ≤ w.toNat / 2 ^ 28) ∨
      w.toNat / 2 ^ 17 % 2 ^ 11 ≠ 0 ∨
      ((w.toNat / 2 ^ 28 = 3 ∨ w.toNat / 2 ^ 28 = 4 ∨ w.toNat / 2 ^ 28 = 5) ∧ w.toNat / 2 ^ 16 % 2 ≠ 0) ∨
      ((w.toNat / 2 ^ 28 = 3 ∨ w.toNat / 2 ^ 28 = 4) ∧ w.toNat % 2 ^ 16 ≠ 0)) ∧
    ∀ e s, decode w = .error e → runWord w s = .next { s with responses := s.responses ++ [0x00000003#32] }

/-- R67: at most one row of the opcode map matches any word; the decoder answers the command of the row that matches,
and ILLEGAL where none does. It reads the word alone. -/
def Obligations.DecodeFollowsTheOpcodeMap : Prop :=
  ∀ w : Word,
    opcodeMap.countP (fun r => w &&& r.mask == r.pattern) ≤ 1 ∧
    (∀ i, decode w = .ok i ↔ ∃ r ∈ opcodeMap, w &&& r.mask = r.pattern ∧ r.command w = i) ∧
    ((∃ e, decode w = .error e) ↔ ∀ r ∈ opcodeMap, w &&& r.mask ≠ r.pattern)

/-- R73: the word of each line of assembler text, and the operands it refuses. An index of 8N or more assembles. -/
def Obligations.AssemblerWords : Prop :=
  (∀ idx v : Nat, idx ≤ 65535 → v ≤ 1 →
    AsmLine.assemble (.set idx v) = some (0x10000000#32 ||| (BitVec.ofNat 32 v <<< 16) ||| BitVec.ofNat 32 idx) ∧
    AsmLine.assemble (.write idx v) = some (0x20000000#32 ||| (BitVec.ofNat 32 v <<< 16) ||| BitVec.ofNat 32 idx)) ∧
  AsmLine.assemble .flush = some 0x30000000#32 ∧
  AsmLine.assemble .refresh = some 0x40000000#32 ∧
  (∀ idx : Nat, idx ≤ 65535 → AsmLine.assemble (.readbit idx) = some (0x50000000#32 ||| BitVec.ofNat 32 idx)) ∧
  (∀ idx v : Nat, 65535 < idx ∨ 1 < v →
    AsmLine.assemble (.set idx v) = none ∧ AsmLine.assemble (.write idx v) = none) ∧
  (∀ idx : Nat, 65535 < idx → AsmLine.assemble (.readbit idx) = none)

/-- R74: each pseudo-instruction is exactly the one command it expands to, refused where that is refused, and no
pseudo-instruction emits an illegal word. -/
def Obligations.PseudoInstructionsExpand : Prop :=
  (∀ idx : Nat,
    AsmLine.assemble (.clr idx) = AsmLine.assemble (.set idx 0) ∧
    AsmLine.assemble (.setb idx) = AsmLine.assemble (.set idx 1)) ∧
  AsmLine.assemble .commit = AsmLine.assemble .flush ∧
  AsmLine.assemble .scan = AsmLine.assemble .refresh ∧
  ∀ (line : AsmLine) (w : Word), AsmLine.assemble line = some w → ∃ i, AsmLine.command line = some i ∧ decode w = .ok i

/-! ### Responses and errors (spec/30_encoding.md R70; spec/60_exceptions.md) -/

/-- R70, R71: every command word, legal or not, ends with exactly one response word, with STATUS in bits 1:0, RDATA in
bit 8 and zero elsewhere. RDATA is the bit a READBIT returns with STATUS = OK, and 0 for every other command and status. -/
def Obligations.EveryCommandAnswersOnce : Prop :=
  (∀ st b,
    (responseWord st b).extractLsb' 9 23 = 0#23 ∧ (responseWord st b).getLsbD 8 = b ∧
    (responseWord st b).extractLsb' 2 6 = 0#6 ∧
    (responseWord st b).extractLsb' 0 2 =
      match st with
      | .ok => 0#2
      | .errRange => 1#2
      | .errMode => 2#2
      | .errIllegal => 3#2) ∧
  ∀ (w : Word) (s : State), ∃ t st b,
    runWord w s = .next t ∧
    t.responses = s.responses ++ [responseWord st b] ∧
    (∀ idx, decode w = .ok (.readbit idx) → st = .ok → b = t.buf.bit (idx.toNat / 8) (idx.toNat % 8)) ∧
    ((∀ idx, decode w ≠ .ok (.readbit idx)) → b = false) ∧
    (st ≠ .ok → b = false)

/-- R121: an illegal word, whatever the MODE and the state, answers 0x00000003, writes no state and emits no event.
That the step takes the word from the host's moves is the model's choice (log 2). -/
def Obligations.IllegalWordAnswersErrIllegal : Prop :=
  ∀ (s : State) (w : Word) (rest : List HostMove) (e : DecodeError),
    s.straps.legal = true → s.moves = .command w :: rest → decode w = .error e →
    step s = .next { s with moves := rest, responses := s.responses ++ [0x00000003#32] }

/-- R122: the table says which commands each MODE accepts. A command the MODE does not accept answers 0x00000002, writes
no state and emits no event; one it accepts does not answer ERR_MODE. -/
def Obligations.ModeTableDecides : Prop :=
  ∀ (i : Instr) (s : State),
    (modeTable i s.straps.mode = false →
      exec i s = .next { s with responses := s.responses ++ [0x00000002#32] }) ∧
    (modeTable i s.straps.mode = true →
      ∃ t, exec i s = .next t ∧ t.responses ≠ s.responses ++ [0x00000002#32])

/-- R123: SET, WRITE and READBIT, in a mode that accepts them, answer 0x00000001 exactly when p ≥ 8N, and then write no
state and emit no event; FLUSH and REFRESH never answer it. -/
def Obligations.OutOfRangeIsRejected : Prop :=
  ∀ (i : Instr) (s : State),
    (∀ idx, Instr.index? i = some idx → modeTable i s.straps.mode = true → 8 * s.straps.chainLength ≤ idx.toNat →
      exec i s = .next { s with responses := s.responses ++ [0x00000001#32] }) ∧
    (Instr.indexFits i s.straps.chainLength →
      ∃ t, exec i s = .next t ∧ t.responses ≠ s.responses ++ [0x00000001#32])

/-- R124: the status is the first that applies of ERR_ILLEGAL, ERR_MODE, ERR_RANGE and OK. -/
def Obligations.ErrorPrecedence : Prop :=
  ∀ (w : Word) (s : State), ∃ t b,
    runWord w s = .next t ∧
    (match decode w with
    | .error _ => t.responses = s.responses ++ [responseWord .errIllegal false]
    | .ok i =>
      if modeTable i s.straps.mode = false then t.responses = s.responses ++ [responseWord .errMode false]
      else (¬ Instr.indexFits i s.straps.chainLength → t.responses = s.responses ++ [responseWord .errRange false]) ∧
        (Instr.indexFits i s.straps.chainLength → t.responses = s.responses ++ [responseWord .ok b]))

/-- R125: a command word that answers a status other than OK leaves `buf`, `cnt`, `dir`, `lvl`, the trace and all else
exactly as they were, but for the response; a command that answers OK has run its whole sequence of events. -/
def Obligations.ErrorsArePrecise : Prop :=
  ∀ (w : Word) (s t : State), runWord w s = .next t →
    ((∀ b, t.responses ≠ s.responses ++ [responseWord .ok b]) → t = { s with responses := t.responses }) ∧
    ((∃ b, t.responses = s.responses ++ [responseWord .ok b]) →
      ∃ i, decode w = .ok i ∧
        t.trace = s.trace ++ match i with
          | .set _ _ => []
          | .write _ _ => flushEvents s.straps t.buf
          | .flush => flushEvents s.straps s.buf
          | .refresh => refreshEvents s.straps s.inbit
          | .readbit _ => if s.cnt = 0#16 then refreshEvents s.straps s.inbit else [])

/-! ### Steps and reset (spec/60_exceptions.md R139; spec/70_reset_and_hazards.md) -/

/-- A step runs the decoded command: where the host's next move is a word that decodes to i, and the straps are legal,
the step is exec of i on the state without that move (R48, R139, R140); and `withFetchWord` places such a word. -/
def Obligations.StepRunsTheDecodedCommand : Prop :=
  (∀ (s : State) (w : Word) (rest : List HostMove) (i : Instr),
    s.straps.legal = true → s.moves = .command w :: rest → decode w = .ok i →
    step s = exec i { s with moves := rest }) ∧
  ∀ (s : State) (w : Word) (i : Instr), s.straps.legal = true → decode w = .ok i →
    step (s.withFetchWord 32 w.toNat) = exec i s

/-- The model's choice (log 3): with no move of the host left, a step leaves the idle controller as it is. -/
def Obligations.StepWithoutMoveIsIdle : Prop :=
  ∀ s : State, s.straps.legal = true → s.moves = [] → step s = .next s

/-- R38, R150, R151: a reset between commands takes the straps, gives every piece of state the value of the table, emits
no event, and starts an empty trace. That the reset is the next of the host's moves (log 2), and that the run it ends is
kept in `earlier` (log 5), is the model's choice. -/
def Obligations.ResetSetsEveryValue : Prop :=
  ∀ (s : State) (c : Straps) (rest : List HostMove),
    s.straps.legal = true → s.moves = .reset c :: rest → c.legal = true →
    ∃ t, step s = .next t ∧
      t.straps = c ∧
      (∀ i < c.chainLength, t.buf.read i = 0x00#8) ∧
      t.cnt = 0#16 ∧
      t.dir.data = .output ∧
      t.dir.clk = .output ∧
      (t.dir.latch = match c.mode with
        | .output => .output
        | .dual => .output
        | .input => .input) ∧
      t.lvl.data = false ∧ t.lvl.clk = false ∧ t.lvl.latch = false ∧
      t.trace = [] ∧ t.responses = [] ∧
      t.moves = rest ∧
      t.earlier = s.earlier ++ [{ straps := s.straps, responses := s.responses, trace := s.trace }]

/-- R152: a reset while a command runs leaves the state of R38; the command gets no response; the trace before the reset
ends with a prefix of the command's events, and every prefix is admitted. The model's choice: the move that cuts a command
(logs 2 and 8), that the ended run is kept in `earlier` (log 5), and that the draws of the samples that were emitted, and
no others, stay taken (log 8). -/
def Obligations.ResetDuringCommandLeavesAPrefix : Prop :=
  ∀ (s : State) (w : Word) (c : Straps) (rest : List HostMove), s.straps.legal = true → c.legal = true →
    ∃ done es, runWord w { s with moves := rest } = .next done ∧ done.trace = s.trace ++ es ∧
      (∀ k, s.moves = .resetDuring w k c :: rest →
        ∃ t pre, step s = .next t ∧ pre <+: es ∧
          t = { State.afterReset c with
            earlier := s.earlier ++ [{ straps := s.straps, responses := s.responses, trace := s.trace ++ pre }]
            moves := rest
            injected := s.injected.drop (pre.countP Event.isSample)
            draws := s.draws + pre.countP Event.isSample }) ∧
      ∀ pre, pre <+: es → ∃ k t,
        step { s with moves := .resetDuring w k c :: rest } = .next t ∧
        t.earlier = s.earlier ++ [{ straps := s.straps, responses := s.responses, trace := s.trace ++ pre }]

/-- R153, D29: straps are legal exactly when 1 ≤ N ≤ 8191; others have no run, and no reset takes them. -/
def Obligations.IllegalStrapsHaveNoRun : Prop :=
  (∀ c : Straps, c.legal = true ↔ 1 ≤ c.chainLength ∧ c.chainLength ≤ 8191) ∧
  (∀ s : State, s.straps.legal = false → step s = .refused .illegalConfiguration) ∧
  (∀ (s : State) (c : Straps) (rest : List HostMove),
    s.straps.legal = true → c.legal = false → s.moves = .reset c :: rest → step s = .refused .illegalConfiguration) ∧
  (∀ (s : State) (w : Word) (k : Nat) (c : Straps) (rest : List HostMove),
    s.straps.legal = true → c.legal = false → s.moves = .resetDuring w k c :: rest →
    step s = .refused .illegalConfiguration)

/-! ### The commands (spec/40_output_path.md, spec/41_input_path.md) -/

/-- R80: the words of SET are those that match 0x10000000 under the mask 0xFFFE0000. SET answers ERR_MODE in MODE =
INPUT and ERR_RANGE for p ≥ 8N, changing nothing else; otherwise it stages bit p & 7 of byte p >> 3, answers OK, and
leaves every other bit, every other byte and all else as it was, with no event. -/
def Obligations.SetStagesOneBit : Prop :=
  ∀ (s : State) (idx : Index) (v : Bit),
    (∀ w : Word, decode w = .ok (.set idx v) ↔
      w &&& 0xFFFE0000#32 = 0x10000000#32 ∧ w.extractLsb' 0 16 = idx ∧ w.getLsbD 16 = v) ∧
    (s.straps.mode = .input → exec (.set idx v) s = .next { s with responses := s.responses ++ [0x2#32] }) ∧
    (s.straps.mode ≠ .input → 8 * s.straps.chainLength ≤ idx.toNat →
      exec (.set idx v) s = .next { s with responses := s.responses ++ [0x1#32] }) ∧
    (s.straps.mode ≠ .input → idx.toNat < 8 * s.straps.chainLength → s.buf.wf →
      ∃ b : Memory,
        exec (.set idx v) s = .next { s with buf := b, responses := s.responses ++ [0x0#32] } ∧
        (∀ i k, k < 8 → b.bit i k = if i = idx.toNat / 8 ∧ k = idx.toNat % 8 then v else s.buf.bit i k) ∧
        (∀ a, a ≠ idx.toNat / 8 → b.read a = s.buf.read a))

/-- R81: the words of WRITE are those that match 0x20000000 under the mask 0xFFFE0000. WRITE answers ERR_MODE in MODE
= INPUT and ERR_RANGE for p ≥ 8N, changing nothing else; otherwise it stages its bit as SET does and then flushes the
buffer that has the bit: 24N+3 events, or 24N+4 in MODE = DUAL. -/
def Obligations.WriteStagesThenFlushes : Prop :=
  ∀ (s : State) (idx : Index) (v : Bit),
    (∀ w : Word, decode w = .ok (.write idx v) ↔
      w &&& 0xFFFE0000#32 = 0x20000000#32 ∧ w.extractLsb' 0 16 = idx ∧ w.getLsbD 16 = v) ∧
    (s.straps.mode = .input → exec (.write idx v) s = .next { s with responses := s.responses ++ [0x2#32] }) ∧
    (s.straps.mode ≠ .input → 8 * s.straps.chainLength ≤ idx.toNat →
      exec (.write idx v) s = .next { s with responses := s.responses ++ [0x1#32] }) ∧
    (s.straps.mode ≠ .input → idx.toNat < 8 * s.straps.chainLength → s.buf.wf →
      ∃ b : Memory,
        exec (.write idx v) s =
          .next { s with
            buf := b
            dir := if s.straps.mode = .dual then { s.dir with latch := .output } else s.dir
            lvl := { data := b.bit (s.straps.chainLength - 1) 0, clk := false, latch := false }
            trace := s.trace ++ flushEvents s.straps b
            responses := s.responses ++ [0x0#32] } ∧
        (∀ i k, k < 8 → b.bit i k = if i = idx.toNat / 8 ∧ k = idx.toNat % 8 then v else s.buf.bit i k) ∧
        (∀ a, a ≠ idx.toNat / 8 → b.read a = s.buf.read a) ∧
        (flushEvents s.straps b).length = 24 * s.straps.chainLength + if s.straps.mode = .dual then 4 else 3)

/-- R82, R84: the word of FLUSH is 0x30000000 exactly. FLUSH answers ERR_MODE in MODE = INPUT, changing nothing else;
otherwise it emits the events of R84 in order (their number is `EventCountTable`'s), leaves CLK and LATCH at 0, DATA
at `buf[N-1][0]` and LATCH as OUT (in MODE = OUTPUT it is OUT already, R27), and changes neither the buffer nor the
counter nor anything else. -/
def Obligations.FlushSendsTheBuffer : Prop :=
  ∀ s : State,
    (∀ w : Word, decode w = .ok .flush ↔ w = 0x30000000#32) ∧
    (s.straps.mode = .input → exec .flush s = .next { s with responses := s.responses ++ [0x2#32] }) ∧
    (s.straps.mode ≠ .input → 1 ≤ s.straps.chainLength →
      exec .flush s =
        .next { s with
          dir := if s.straps.mode = .dual then { s.dir with latch := .output } else s.dir
          lvl := { data := s.buf.bit (s.straps.chainLength - 1) 0, clk := false, latch := false }
          trace := s.trace ++ flushEvents s.straps s.buf
          responses := s.responses ++ [0x0#32] } ∧
      (s.Inv → ∀ t, exec .flush s = .next t → t.dir.latch = .output))

/-- R101, R100: the word of REFRESH is 0x40000000 exactly. REFRESH answers ERR_MODE in MODE = OUTPUT, changing nothing
else; otherwise it takes 8N draws, puts the t-th in bit 7 - (t & 7) of byte t >> 3, emits the events of R100 in order
(their number is `EventCountTable`'s), leaves CLK and DATA at 0, LATCH's level as it was and its direction IN (in MODE
= INPUT it is IN already, R27), and changes neither the counter, nor a byte outside the buffer, nor anything else. The
fields `injected` and `draws` are the model's form of the oracle's draws (log 4). -/
def Obligations.RefreshCapturesTheInput : Prop :=
  ∀ s : State,
    (∀ w : Word, decode w = .ok .refresh ↔ w = 0x40000000#32) ∧
    (s.straps.mode = .output → exec .refresh s = .next { s with responses := s.responses ++ [0x2#32] }) ∧
    (s.straps.mode ≠ .output → s.buf.wf →
      ∃ b : Memory,
        exec .refresh s =
          .next { s with
            buf := b
            dir := if s.straps.mode = .dual then { s.dir with latch := .input } else s.dir
            lvl := { data := false, clk := false, latch := s.lvl.latch }
            trace := s.trace ++ refreshEvents s.straps s.inbit
            responses := s.responses ++ [0x0#32]
            injected := s.injected.drop (8 * s.straps.chainLength)
            draws := s.draws + 8 * s.straps.chainLength } ∧
        (∀ t < 8 * s.straps.chainLength, b.bit (t / 8) (7 - t % 8) = s.inbit t) ∧
        (∀ a, s.straps.chainLength ≤ a → b.read a = s.buf.read a) ∧
        (s.Inv → ∀ t, exec .refresh s = .next t → t.dir.latch = .input))

/-- R106: the words of READBIT are those that match 0x50000000 under the mask 0xFFFF0000. READBIT answers ERR_MODE in
MODE = OUTPUT and ERR_RANGE for p ≥ 8N, changing nothing else. Otherwise, with `cnt = 0`, it does what a refresh does
and sets `cnt` to 8N-1; with `cnt ≠ 0` it only counts down, with no event. Then it answers OK with the bit p & 7 of
byte p >> 3 of the buffer it leaves. The fields `injected` and `draws` are the model's form of the oracle's draws (log
4). -/
def Obligations.ReadbitFollowsTheCounter : Prop :=
  ∀ (s : State) (idx : Index),
    (∀ w : Word, decode w = .ok (.readbit idx) ↔
      w &&& 0xFFFF0000#32 = 0x50000000#32 ∧ w.extractLsb' 0 16 = idx) ∧
    (s.straps.mode = .output → exec (.readbit idx) s = .next { s with responses := s.responses ++ [0x2#32] }) ∧
    (s.straps.mode ≠ .output → 8 * s.straps.chainLength ≤ idx.toNat →
      exec (.readbit idx) s = .next { s with responses := s.responses ++ [0x1#32] }) ∧
    (s.straps.mode ≠ .output → idx.toNat < 8 * s.straps.chainLength → s.straps.legal = true → s.cnt = 0#16 →
      s.buf.wf →
      ∃ b : Memory,
        exec (.readbit idx) s =
          .next { s with
            buf := b
            cnt := BitVec.ofNat 16 (8 * s.straps.chainLength - 1)
            dir := if s.straps.mode = .dual then { s.dir with latch := .input } else s.dir
            lvl := { data := false, clk := false, latch := s.lvl.latch }
            trace := s.trace ++ refreshEvents s.straps s.inbit
            responses :=
              s.responses ++ [if b.bit (idx.toNat / 8) (idx.toNat % 8) = true then 0x100#32 else 0x0#32]
            injected := s.injected.drop (8 * s.straps.chainLength)
            draws := s.draws + 8 * s.straps.chainLength } ∧
        (∀ t < 8 * s.straps.chainLength, b.bit (t / 8) (7 - t % 8) = s.inbit t) ∧
        (∀ a, s.straps.chainLength ≤ a → b.read a = s.buf.read a)) ∧
    (s.straps.mode ≠ .output → idx.toNat < 8 * s.straps.chainLength → s.cnt ≠ 0#16 →
      exec (.readbit idx) s =
        .next { s with
          cnt := BitVec.ofNat 16 (s.cnt.toNat - 1)
          responses :=
            s.responses ++ [if s.buf.bit (idx.toNat / 8) (idx.toNat % 8) = true then 0x100#32 else 0x0#32] })

/-- R105: the counter's arithmetic never wraps. The restart value is 8N-1, at most 65527; the counter is decremented only
from 1 or more; and it stays in 0..8N-1. -/
def Obligations.CounterNeverWraps : Prop :=
  ∀ (s : State) (idx : Index), s.straps.legal = true → s.cnt.toNat < 8 * s.straps.chainLength →
    s.straps.mode ≠ .output → idx.toNat < 8 * s.straps.chainLength →
    ∃ t, exec (.readbit idx) s = .next t ∧
      8 * s.straps.chainLength - 1 ≤ 65527 ∧
      (s.cnt = 0#16 → t.cnt.toNat = 8 * s.straps.chainLength - 1) ∧
      (s.cnt ≠ 0#16 → 1 ≤ s.cnt.toNat ∧ t.cnt.toNat = s.cnt.toNat - 1) ∧
      t.cnt.toNat ≤ 8 * s.straps.chainLength - 1

/-- R42: the t-th DATA value of a flush, for t in 0..8N-1, is `buf[t >> 3][7 - (t & 7)]`, and there are no others. -/
def Obligations.FlushSerialOrder : Prop :=
  ∀ s : State, s.straps.mode ≠ .input →
    ∃ t es, exec .flush s = .next t ∧ t.trace = s.trace ++ es ∧
      dataValues es = (List.range (8 * s.straps.chainLength)).map fun k => s.buf.bit (k / 8) (7 - k % 8)

/-- R43: the t-th sample of a refresh, for t in 0..8N-1, is the t-th draw and goes to `buf[t >> 3][7 - (t & 7)]`; there
are no other samples. -/
def Obligations.RefreshSerialOrder : Prop :=
  ∀ s : State, s.straps.mode ≠ .output → s.buf.wf →
    ∃ t es, exec .refresh s = .next t ∧ t.trace = s.trace ++ es ∧
      sampledValues es = (List.range (8 * s.straps.chainLength)).map s.inbit ∧
      ∀ k < 8 * s.straps.chainLength, t.buf.bit (k / 8) (7 - k % 8) = s.inbit k

/-- R86 (b): the DATA values of a flush, cut into N groups of 8 and each read as a byte most-significant bit first, are
exactly `buf[0..N-1]`. -/
def Obligations.FlushRoundTrip : Prop :=
  ∀ s : State, s.straps.mode ≠ .input →
    ∃ t es, exec .flush s = .next t ∧ t.trace = s.trace ++ es ∧
      (dataValues es).length = 8 * s.straps.chainLength ∧
      ∀ i < s.straps.chainLength, msbFirst (((dataValues es).drop (8 * i)).take 8) = s.buf.read i

/-- R107 (b): after a refresh each buffer byte is its eight samples read most-significant bit first, in scan order. -/
def Obligations.RefreshRoundTrip : Prop :=
  ∀ s : State, s.straps.mode ≠ .output → s.buf.wf →
    ∃ t es, exec .refresh s = .next t ∧ t.trace = s.trace ++ es ∧
      (sampledValues es).length = 8 * s.straps.chainLength ∧
      ∀ i < s.straps.chainLength, msbFirst (((sampledValues es).drop (8 * i)).take 8) = t.buf.read i

/-- R54, R107 (c), R103: a flush has 8N CLK pulses and exactly one LATCH pulse; a refresh has 8N+1 CLK pulses, exactly
one DATA pulse, and never drives LATCH. -/
def Obligations.PulsesPerCommand : Prop :=
  ∀ s : State,
    (s.straps.mode ≠ .input → ∃ t es, exec .flush s = .next t ∧ t.trace = s.trace ++ es ∧
      es.count (.drv .latch true) = 1 ∧ es.count (.drv .latch false) = 1 ∧
      es.count (.drv .clk true) = 8 * s.straps.chainLength ∧
      es.count (.drv .clk false) = 8 * s.straps.chainLength + 1) ∧
    (s.straps.mode ≠ .output → ∃ t es, exec .refresh s = .next t ∧ t.trace = s.trace ++ es ∧
      es.count (.drv .data true) = 1 ∧ es.count (.drv .data false) = 1 ∧
      es.count (.drv .clk true) = 8 * s.straps.chainLength + 1 ∧
      es.count (.drv .clk false) = 8 * s.straps.chainLength + 2 ∧
      ∀ l, es.count (.drv .latch l) = 0)

/-- R164: the number of events of each command in each mode. -/
def Obligations.EventCountTable : Prop :=
  ∀ (i : Instr) (s : State), ∃ t es, exec i s = .next t ∧ t.trace = s.trace ++ es ∧
    ((∀ b, t.responses ≠ s.responses ++ [responseWord .ok b]) → es.length = 0) ∧
    ((∃ b, t.responses = s.responses ++ [responseWord .ok b]) →
      match i with
      | .set _ _ => es.length = 0
      | .write _ _ => es.length = 24 * s.straps.chainLength + if s.straps.mode = .dual then 4 else 3
      | .flush => es.length = 24 * s.straps.chainLength + if s.straps.mode = .dual then 4 else 3
      | .refresh => es.length = 24 * s.straps.chainLength + if s.straps.mode = .dual then 6 else 5
      | .readbit _ =>
        (s.cnt = 0#16 → es.length = 24 * s.straps.chainLength + if s.straps.mode = .dual then 6 else 5) ∧
        (s.cnt ≠ 0#16 → es.length = 0))

/-! ### Laws of the two paths (spec/40_output_path.md R86, spec/41_input_path.md R107) -/

/-- R86 (a): for p < 8N, WRITE leaves the same state and trace as SET followed by FLUSH, which answer OK twice. -/
def Obligations.WriteIsSetThenFlush : Prop :=
  ∀ (s : State) (idx : Index) (v : Bit), s.straps.mode ≠ .input → idx.toNat < 8 * s.straps.chainLength →
    ∃ t u, exec (.write idx v) s = .next t ∧ execAll [.set idx v, .flush] s = .next u ∧
      t.responses = s.responses ++ [0x0#32] ∧
      u = { t with responses := s.responses ++ [0x0#32, 0x0#32] }

/-- R86 (d): any run of SETs emits no event, and the next FLUSH emits exactly one `DRV(LATCH, 1)`, as does the next
WRITE. -/
def Obligations.SetsStayOffTheBus : Prop :=
  ∀ (is : List Instr) (s : State), s.straps.mode ≠ .input → (∀ i ∈ is, ∃ idx v, i = .set idx v) →
    ∃ t, execAll is s = .next t ∧ t.trace = s.trace ∧
      (∃ u es, exec .flush t = .next u ∧ u.trace = t.trace ++ es ∧ es.count (.drv .latch true) = 1) ∧
      ∀ (idx : Index) (v : Bit), idx.toNat < 8 * s.straps.chainLength →
        ∃ u es, exec (.write idx v) t = .next u ∧ u.trace = t.trace ++ es ∧ es.count (.drv .latch true) = 1

/-- R86 (e), first sentence: SETs to distinct indices, then one FLUSH, give the same state and trace in whatever order
the SETs ran. -/
def Obligations.SetOrderDoesNotMatter : Prop :=
  ∀ (is js : List Instr) (s : State), s.buf.wf → is.Perm js →
    (∀ i ∈ is, ∃ idx v, i = .set idx v ∧ idx.toNat < 8 * s.straps.chainLength) → (is.map Instr.index?).Nodup →
    ∃ t, execAll (is ++ [.flush]) s = .next t ∧ execAll (js ++ [.flush]) s = .next t

/-- R86 (e), second sentence: SETs to the same index leave the last one's value; R47 (a): repeating a SET with the same
operands leaves the same state as doing it once. -/
def Obligations.LastSetWins : Prop :=
  ∀ (s : State) (idx : Index) (v w : Bit), s.buf.wf → s.straps.mode ≠ .input →
    idx.toNat < 8 * s.straps.chainLength →
    ∃ t u, execAll [.set idx v, .set idx w] s = .next t ∧ exec (.set idx w) s = .next u ∧
      t = { u with responses := u.responses ++ [0x0#32] }

/-- R57, R159: in MODE = DUAL a READBIT that does not refresh returns a bit that a SET wrote. -/
def Obligations.StagedBitIsRead : Prop :=
  ∀ (s : State) (idx : Index) (v : Bit), s.buf.wf → s.straps.mode = .dual → s.cnt ≠ 0#16 →
    idx.toNat < 8 * s.straps.chainLength →
    ∃ t, execAll [.set idx v, .readbit idx] s = .next t ∧ t.trace = s.trace ∧
      t.responses = s.responses ++ [0x0#32, if v = true then 0x100#32 else 0x0#32]

/-- R159: in MODE = DUAL a REFRESH overwrites every bit staged by SETs: after it the buffer and the counter are what they
would be had the SETs not run. -/
def Obligations.RefreshOverwritesStagedBits : Prop :=
  ∀ (is : List Instr) (s : State), s.Inv → s.straps.mode = .dual → (∀ i ∈ is, ∃ idx v, i = .set idx v) →
    ∃ t u, execAll (is ++ [.refresh]) s = .next t ∧ exec .refresh s = .next u ∧
      t = { u with responses := t.responses }

/-- R107 (a): the refresh cadence. From `cnt = c`, in a run in which every READBIT succeeds, the j-th READBIT, counted
from 1, emits a refresh's events exactly when j = c+1 or j = c+1+8N·m for some m ≥ 1, and no event otherwise; other
commands may be interleaved (an explicit REFRESH too, which leaves the counter alone, R24). -/
def Obligations.RefreshCadence : Prop :=
  ∀ (is : List Instr) (s : State) (idx : Index),
    s.straps.legal = true → s.straps.mode ≠ .output → s.cnt.toNat < 8 * s.straps.chainLength →
    (∀ i ∈ is, Instr.isRead i = true → Instr.indexFits i s.straps.chainLength) →
    idx.toNat < 8 * s.straps.chainLength →
    ∃ t u, execAll is s = .next t ∧ exec (.readbit idx) t = .next u ∧
      ((is.countP Instr.isRead + 1 = s.cnt.toNat + 1 ∨
        ∃ m ≥ 1, is.countP Instr.isRead + 1 = s.cnt.toNat + 1 + 8 * s.straps.chainLength * m) →
        u.trace = t.trace ++ refreshEvents s.straps t.inbit) ∧
      (¬ (is.countP Instr.isRead + 1 = s.cnt.toNat + 1 ∨
        ∃ m ≥ 1, is.countP Instr.isRead + 1 = s.cnt.toNat + 1 + 8 * s.straps.chainLength * m) →
        u.trace = t.trace)

/-! ### Frames and independence -/

/-- R24: READBIT is the only command that writes the counter, and in MODE = OUTPUT no command does. -/
def Obligations.OnlyReadbitChangesTheCounter : Prop :=
  ∀ (i : Instr) (s : State), Instr.isRead i = false ∨ s.straps.mode = .output →
    ∃ t, exec i s = .next t ∧ t.cnt = s.cnt

/-- R26, R27, R28, R34: no command changes the straps, the direction of DATA or CLK, or, outside MODE = DUAL, that of
LATCH; in MODE = DUAL a WRITE or FLUSH that answers OK leaves LATCH as OUT, a REFRESH, or a READBIT that refreshes, as
IN, and every other command as it was. Nor does one change the model's own fields `moves` (log 2) and `earlier` (log
5), which are its choice. -/
def Obligations.CommandsKeepStrapsAndDirections : Prop :=
  ∀ (i : Instr) (s : State), ∃ t, exec i s = .next t ∧
    t.straps = s.straps ∧ t.moves = s.moves ∧ t.earlier = s.earlier ∧
    t.dir.data = s.dir.data ∧ t.dir.clk = s.dir.clk ∧
    (s.straps.mode ≠ .dual → t.dir.latch = s.dir.latch) ∧
    (s.straps.mode = .dual → t.dir.latch =
      if ∀ b, t.responses ≠ s.responses ++ [responseWord .ok b] then s.dir.latch
      else match i with
        | .set _ _ => s.dir.latch
        | .write _ _ => .output
        | .flush => .output
        | .refresh => .input
        | .readbit _ => if s.cnt = 0#16 then .input else s.dir.latch)

/-- R10: SAMPLE_POINT changes only where the sample events stand in the trace: with another sample point a command leaves
the same buffer, counter, directions, levels, responses and draws, and the same events but for the places of the
samples among them. -/
def Obligations.SamplePointMovesOnlyTheSample : Prop :=
  ∀ (i : Instr) (s : State) (sp : SamplePoint),
    ∃ t es fs, exec i s = .next t ∧ t.trace = s.trace ++ es ∧
      exec i { s with straps := { s.straps with samplePoint := sp } } =
        .next { t with straps := { s.straps with samplePoint := sp }, trace := s.trace ++ fs } ∧
      fs.length = es.length ∧
      sampledValues fs = sampledValues es ∧
      fs.filter (fun e => !(Event.isSample e)) = es.filter (fun e => !(Event.isSample e))

/-- R37: only a refresh reads the input oracle: what every other command does is the same for all injected bits and all
draws. -/
def Obligations.OnlyRefreshesReadTheOracle : Prop :=
  ∀ (i : Instr) (s : State) (bits : List Bit) (n : Nat),
    i ≠ .refresh → (Instr.isRead i = true → s.cnt ≠ 0#16) →
    ∃ t, exec i s = .next t ∧ t.injected = s.injected ∧ t.draws = s.draws ∧
      exec i { s with injected := bits, draws := n } = .next { t with injected := bits, draws := n }

/-- R31: the controller never reads the trace. Nor does it read the responses given or the runs ended, which the
model's choice of log 5 puts in State, or the host's moves still to come (log 2): whatever these four are, a command
does the same, appends the same events and the same response, and leaves the moves and the ended runs as they are. -/
def Obligations.ControllerNeverReadsTheTrace : Prop :=
  ∀ (i : Instr) (s : State) (tr : List Event) (rs : List Word) (runs : List Run) (ms : List HostMove),
    ∃ t es w, exec i s = .next t ∧ t.trace = s.trace ++ es ∧ t.responses = s.responses ++ [w] ∧
      exec i { s with trace := tr, responses := rs, earlier := runs, moves := ms } =
        .next { t with trace := tr ++ es, responses := rs ++ [w], earlier := runs, moves := ms }

/-! ### Invariants -/

/-- R39: what holds between commands is kept by every step: the pin levels and directions at rest, the counter in range,
the straps legal, and the buffer's list in its canonical form over bytes 0..N-1. -/
def Obligations.StepKeepsInvariant : Prop := ∀ s t : State, s.Inv → step s = .next t → t.Inv

/-- R38, R39: the state after a reset with any legal straps meets both invariants. -/
def Obligations.ResetMeetsInvariants : Prop :=
  (∀ c : Straps, c.legal = true → (State.afterReset c).Inv ∧ (State.afterReset c).TraceInv) ∧
  State.reset = State.afterReset resetStraps ∧ resetStraps.legal = true

/-- R156, R31: every step keeps the lines equal to what the trace's events leave, and the trace within the directions: no
line is driven while IN, and none is sampled while OUT, in no run, a run a reset cut short included. -/
def Obligations.StepKeepsTraceInvariant : Prop :=
  ∀ s t : State, s.Inv → s.TraceInv → step s = .next t → t.TraceInv

/-- R137: the output guarantee. When a WRITE or FLUSH answers OK with the reference output chain attached, every output
equals its buffer bit, `Q[8j+b] = buf[N-1-j][b]`; and Q changes at no event but the `DRV(LATCH, 1)` of the flush. -/
def Obligations.FlushShowsOnTheChain : Prop :=
  ∀ (s : State) (i : Instr) (c : Chain), s.Inv → s.straps.mode ≠ .input →
    (i = .flush ∨ ∃ idx v, i = .write idx v ∧ idx.toNat < 8 * s.straps.chainLength) →
    c.shift.length = 8 * s.straps.chainLength → c.out.length = 8 * s.straps.chainLength →
    ∃ t before, exec i s = .next t ∧ t.responses = s.responses ++ [0x0#32] ∧
      t.trace = s.trace ++ (before ++ [.drv .latch true, .drv .latch false]) ∧
      (∀ k ≤ before.length, (Chain.run s.lines c (before.take k)).out = c.out) ∧
      (Chain.run s.lines c (before ++ [.drv .latch true])).out =
        (Chain.run s.lines c (before ++ [.drv .latch true, .drv .latch false])).out ∧
      ∀ j < s.straps.chainLength, ∀ b < 8,
        (Chain.run s.lines c (before ++ [.drv .latch true, .drv .latch false])).out[8 * j + b]? =
          some (t.buf.bit (s.straps.chainLength - 1 - j) b)
end

