-- ==== Sys2Proof/Laws/Encoding.lean ====
section
/-! SUPPORT. The fields of a command word: a word is its four fields, a masked comparison is a condition on fields, and
the fields of an encoded command. -/

namespace Sys2Proof

/-- A word is its four fields side by side (R65). -/
theorem word_eq_fields (w : Word) :
    w = opField w ++ rsvField w ++ BitVec.ofBool (valueField w) ++ indexField w := by
  apply BitVec.eq_of_getLsbD_eq
  intro i hi
  simp only [opField, rsvField, valueField, indexField, BitVec.getLsbD_append, BitVec.getLsbD_extractLsb',
    BitVec.getLsbD_ofBool]
  by_cases h1 : i < 16
  · simp [h1]
  · by_cases h2 : i - 16 < 1
    · have : i = 16 := by omega
      subst this; simp
    · by_cases h3 : i - 16 - 1 < 11
      · have : 17 + (i - 16 - 1) = i := by omega
        simp [h1, h2, h3, this]
      · have : 28 + (i - 16 - 1 - 11) = i := by omega
        have h4 : i - 16 - 1 - 11 < 4 := by omega
        simp [h1, h2, h3, h4, this]

/-- Words built from the same fields only are equal. -/
theorem fields_injective {o o' : BitVec 4} {r r' : BitVec 11} {v v' : BitVec 1} {x x' : BitVec 16} :
    o ++ r ++ v ++ x = o' ++ r' ++ v' ++ x' ↔ o = o' ∧ r = r' ∧ v = v' ∧ x = x' := by
  constructor
  · intro h
    have hx := congrArg (BitVec.setWidth 16) h
    have h1 := congrArg (fun w : BitVec 32 => w.extractLsb' 16 16) h
    simp only [BitVec.setWidth_append_eq_right, BitVec.extractLsb'_append_eq_left] at hx h1
    have h2 := congrArg (BitVec.setWidth 1) h1
    have h3 := congrArg (fun w : BitVec 16 => w.extractLsb' 1 15) h1
    simp only [BitVec.setWidth_append_eq_right, BitVec.extractLsb'_append_eq_left] at h2 h3
    have h4 := congrArg (BitVec.setWidth 11) h3
    have h5 := congrArg (fun w : BitVec 15 => w.extractLsb' 11 4) h3
    simp only [BitVec.setWidth_append_eq_right, BitVec.extractLsb'_append_eq_left] at h4 h5
    exact ⟨h5, h4, h2, hx⟩
  · rintro ⟨rfl, rfl, rfl, rfl⟩; rfl

theorem fields_and (o o' : BitVec 4) (r r' : BitVec 11) (v v' : BitVec 1) (x x' : BitVec 16) :
    (o ++ r ++ v ++ x) &&& (o' ++ r' ++ v' ++ x') = (o &&& o') ++ (r &&& r') ++ (v &&& v') ++ (x &&& x') := by
  rw [BitVec.and_append, BitVec.and_append, BitVec.and_append]

/-- A field of ones keeps a field whole. -/
theorem and_ones (o : BitVec 4) (r : BitVec 11) (x : BitVec 16) :
    o &&& 15#4 = o ∧ r &&& 2047#11 = r ∧ x &&& 65535#16 = x :=
  ⟨BitVec.and_allOnes, BitVec.and_allOnes, BitVec.and_allOnes⟩

/-- A masked comparison with the SET or WRITE row's mask (R66, format I). -/
theorem masked_formatI (w : Word) (o : BitVec 4) :
    w &&& 0xFFFE0000#32 = o ++ 0#11 ++ 0#1 ++ 0#16 ↔ opField w = o ∧ rsvField w = 0#11 := by
  conv_lhs => rw [word_eq_fields w, show 0xFFFE0000#32 = 15#4 ++ 2047#11 ++ 0#1 ++ 0#16 from rfl, fields_and]
  rw [fields_injective]
  simp [and_ones (opField w) (rsvField w) (indexField w)]

/-- A masked comparison with the READBIT row's mask (R66, format X). -/
theorem masked_formatX (w : Word) (o : BitVec 4) :
    w &&& 0xFFFF0000#32 = o ++ 0#11 ++ 0#1 ++ 0#16 ↔
      opField w = o ∧ rsvField w = 0#11 ∧ valueField w = false := by
  conv_lhs => rw [word_eq_fields w, show 0xFFFF0000#32 = 15#4 ++ 2047#11 ++ 1#1 ++ 0#16 from rfl, fields_and]
  rw [fields_injective]
  cases valueField w <;>
    simp [and_ones (opField w) (rsvField w) (indexField w)]

/-- A masked comparison with the FLUSH or REFRESH row's mask (R66, format Z). -/
theorem masked_formatZ (w : Word) (o : BitVec 4) :
    w &&& 0xFFFFFFFF#32 = o ++ 0#11 ++ 0#1 ++ 0#16 ↔
      opField w = o ∧ rsvField w = 0#11 ∧ valueField w = false ∧ indexField w = 0#16 := by
  conv_lhs => rw [word_eq_fields w, show 0xFFFFFFFF#32 = 15#4 ++ 2047#11 ++ 1#1 ++ 65535#16 from rfl, fields_and]
  rw [fields_injective]
  cases valueField w <;>
    simp [and_ones (opField w) (rsvField w) (indexField w)]

/-- The decoder, in terms of the fields of the word. -/
theorem decode_eq (w : Word) :
    decode w =
      if opField w = 1#4 ∧ rsvField w = 0#11 then .ok (.set (indexField w) (valueField w))
      else if opField w = 2#4 ∧ rsvField w = 0#11 then .ok (.write (indexField w) (valueField w))
      else if opField w = 3#4 ∧ rsvField w = 0#11 ∧ valueField w = false ∧ indexField w = 0#16 then .ok .flush
      else if opField w = 4#4 ∧ rsvField w = 0#11 ∧ valueField w = false ∧ indexField w = 0#16 then .ok .refresh
      else if opField w = 5#4 ∧ rsvField w = 0#11 ∧ valueField w = false then .ok (.readbit (indexField w))
      else .error (illegalReason w) := by
  have h1 := masked_formatI w 1#4
  have h2 := masked_formatI w 2#4
  have h3 := masked_formatZ w 3#4
  have h4 := masked_formatZ w 4#4
  have h5 := masked_formatX w 5#4
  rw [show 1#4 ++ 0#11 ++ 0#1 ++ 0#16 = 0x10000000#32 from rfl] at h1
  rw [show 2#4 ++ 0#11 ++ 0#1 ++ 0#16 = 0x20000000#32 from rfl] at h2
  rw [show 3#4 ++ 0#11 ++ 0#1 ++ 0#16 = 0x30000000#32 from rfl] at h3
  rw [show 4#4 ++ 0#11 ++ 0#1 ++ 0#16 = 0x40000000#32 from rfl] at h4
  rw [show 5#4 ++ 0#11 ++ 0#1 ++ 0#16 = 0x50000000#32 from rfl] at h5
  simp only [← h1, ← h2, ← h3, ← h4, ← h5]
  simp only [decode, opcodeMap, List.find?_cons, List.find?_nil, OpcodeRow.hits]
  by_cases g1 : w &&& 0xFFFE0000#32 = 0x10000000#32
  · rw [if_pos g1, beq_iff_eq.2 g1]
  rw [if_neg g1, beq_eq_false_iff_ne.2 g1]
  by_cases g2 : w &&& 0xFFFE0000#32 = 0x20000000#32
  · rw [if_pos g2, beq_iff_eq.2 g2]
  rw [if_neg g2, beq_eq_false_iff_ne.2 g2]
  by_cases g3 : w &&& 0xFFFFFFFF#32 = 0x30000000#32
  · rw [if_pos g3, beq_iff_eq.2 g3]
  rw [if_neg g3, beq_eq_false_iff_ne.2 g3]
  by_cases g4 : w &&& 0xFFFFFFFF#32 = 0x40000000#32
  · rw [if_pos g4, beq_iff_eq.2 g4]
  rw [if_neg g4, beq_eq_false_iff_ne.2 g4]
  by_cases g5 : w &&& 0xFFFF0000#32 = 0x50000000#32
  · rw [if_pos g5, beq_iff_eq.2 g5]
  rw [if_neg g5, beq_eq_false_iff_ne.2 g5]

/-- The fields of a word laid out from fields. -/
theorem fields_of_append (o : BitVec 4) (r : BitVec 11) (v : Bit) (x : BitVec 16) :
    opField (o ++ r ++ BitVec.ofBool v ++ x) = o ∧ rsvField (o ++ r ++ BitVec.ofBool v ++ x) = r ∧
    valueField (o ++ r ++ BitVec.ofBool v ++ x) = v ∧ indexField (o ++ r ++ BitVec.ofBool v ++ x) = x := by
  have h := word_eq_fields (o ++ r ++ BitVec.ofBool v ++ x)
  rw [fields_injective] at h
  obtain ⟨ho, hr, hv, hx⟩ := h
  refine ⟨ho.symm, hr.symm, ?_, hx.symm⟩
  have := congrArg (fun b : BitVec 1 => b.getLsbD 0) hv
  simpa using this.symm

end Sys2Proof
end

