-- ==== Sys2Proof/Laws/Events.lean ====
section
/-! SUPPORT. The event sequences of a flush and of a refresh: how long they are and what values they carry. -/

namespace Sys2Proof.Machine

theorem outPeriod_length (l : Bit) : (outPeriod l).length = 3 := rfl

theorem scanPeriod_length (sp : SamplePoint) (s : Bit) : (scanPeriod sp s).length = 3 := by cases sp <;> rfl

/-- R85: 24N+3 events, or 24N+4 in MODE = DUAL. -/
theorem flushEvents_length (c : Straps) (buf : Memory) :
    (flushEvents c buf).length = 24 * c.chainLength + if c.mode = .dual then 4 else 3 := by
  simp only [flushEvents, List.length_append, List.length_flatMap, outPeriod_length]
  split <;> simp <;> omega

/-- R103: 24N+5 events, or 24N+6 in MODE = DUAL. -/
theorem refreshEvents_length (c : Straps) (inbits : Nat → Bit) :
    (refreshEvents c inbits).length = 24 * c.chainLength + if c.mode = .dual then 6 else 5 := by
  simp only [refreshEvents, List.length_append, List.length_flatMap, scanPeriod_length]
  split <;> simp <;> omega

theorem dataValues_append (es fs : List Event) : dataValues (es ++ fs) = dataValues es ++ dataValues fs :=
  List.filterMap_append

theorem sampledValues_append (es fs : List Event) :
    sampledValues (es ++ fs) = sampledValues es ++ sampledValues fs :=
  List.filterMap_append

theorem dataValues_outPeriods (f : Nat → Bit) (l : List Nat) :
    dataValues (l.flatMap fun t => outPeriod (f t)) = l.map f := by
  induction l with
  | nil => rfl
  | cons x l ih => rw [List.flatMap_cons, dataValues_append, ih]; rfl

theorem sampledValues_scanPeriods (sp : SamplePoint) (f : Nat → Bit) (l : List Nat) :
    sampledValues (l.flatMap fun t => scanPeriod sp (f t)) = l.map f := by
  induction l with
  | nil => rfl
  | cons x l ih => rw [List.flatMap_cons, sampledValues_append, ih]; cases sp <;> rfl

/-- The samples among events are the draws they took. -/
theorem countP_isSample (es : List Event) : es.countP Event.isSample = (sampledValues es).length := by
  induction es with
  | nil => rfl
  | cons e es ih =>
    rw [← List.singleton_append, sampledValues_append, List.length_append, ← ih, List.countP_append]
    cases e <;> rfl

end Sys2Proof.Machine
end

