-- ==== Sys2Proof/Laws/Lists.lean ====
section
/-! SUPPORT. Loops over 8N bits: bit by bit, or byte by byte and eight bits in each. -/

namespace Sys2Proof.Machine

/-- A list built over 8N positions is the one built byte by byte. -/
theorem flatMap_range_eight {α : Type} (f : Nat → List α) (n : Nat) :
    (List.range (8 * n)).flatMap f = (List.range n).flatMap fun i => (List.range 8).flatMap fun j => f (8 * i + j) := by
  induction n with
  | zero => rfl
  | succ n ih =>
    rw [show 8 * (n + 1) = 8 * n + 8 by omega, List.range_add, List.flatMap_append, ih, List.range_succ (n := n),
      List.flatMap_append]
    simp [List.flatMap_map]

/-- A loop over 8N positions is the loop over N bytes and eight positions in each. -/
theorem foldl_range_eight {σ : Type} (f : σ → Nat → σ) (n : Nat) (s : σ) :
    (List.range (8 * n)).foldl f s =
      (List.range n).foldl (fun s i => (List.range 8).foldl (fun s j => f s (8 * i + j)) s) s := by
  induction n with
  | zero => rfl
  | succ n ih =>
    rw [show 8 * (n + 1) = 8 * n + 8 by omega, List.range_add, List.foldl_append, ih, List.range_succ (n := n),
      List.foldl_append]
    simp [List.foldl_map]

end Sys2Proof.Machine
end

