-- ==== Sys2Proof/Laws/Memory.lean ====
section
/-! SUPPORT. The laws of the buffer: a read after a write, the canonical form kept, equal reads make equal buffers, and
what a bit written leaves in every bit. -/

namespace Sys2Proof.Machine

theorem Memory.wf_nil : Memory.wf [] := by simp [Memory.wf]

/-- A byte below every listed index is not listed. -/
theorem Memory.read_of_lt {m : Memory} {a : Nat} (h : ∀ c ∈ m, a < c.1) : Memory.read m a = resetByte := by
  induction m with
  | nil => rfl
  | cons c rest ih =>
    have hc : c.1 ≠ a := by have := h c (by simp); omega
    simp only [Memory.read, hc, if_false]
    exact ih fun d hd => h d (by simp [hd])

theorem Memory.wf_cons {c : Host.Cell} {m : Memory} :
    Memory.wf (c :: m) ↔ (∀ d ∈ m, c.1 < d.1) ∧ c.2 ≠ resetByte ∧ Memory.wf m := by
  simp [Memory.wf, List.pairwise_cons]; tauto

/-- Every index listed after a write was listed before or is the one written. -/
theorem Memory.mem_write {m : Memory} {a : Nat} {b : Byte} {c : Host.Cell} (h : c ∈ Memory.write m a b) :
    c ∈ m ∨ c = (a, b) := by
  induction m with
  | nil => simp only [Memory.write] at h; split at h <;> simp_all
  | cons d rest ih =>
    simp only [Memory.write] at h
    split at h
    · split at h <;> simp_all
      tauto
    · split at h
      · split at h <;> simp_all
        tauto
      · rcases List.mem_cons.1 h with h | h
        · simp [h]
        · rcases ih h with h | h <;> simp [h]

/-- A write keeps the canonical form. -/
theorem Memory.wf_write {m : Memory} (h : m.wf) (a : Nat) (b : Byte) : (m.write a b).wf := by
  induction m with
  | nil =>
    simp only [Memory.write]
    split <;> simp_all [Memory.wf]
  | cons d rest ih =>
    obtain ⟨hlt, hne, hrest⟩ := Memory.wf_cons.1 h
    simp only [Memory.write]
    split
    · split
      · exact h
      · refine Memory.wf_cons.2 ⟨fun e he => ?_, ‹_›, h⟩
        rcases List.mem_cons.1 he with rfl | he
        · assumption
        · have := hlt e he; simp only at *; omega
    · split
      · split
        · exact hrest
        · refine Memory.wf_cons.2 ⟨fun e he => ?_, ‹_›, hrest⟩
          have := hlt e he; simp only at *; omega
      · refine Memory.wf_cons.2 ⟨fun e he => ?_, hne, ih hrest⟩
        rcases Memory.mem_write he with he | rfl
        · exact hlt e he
        · simp only at *; omega

/-- A byte reads as the last value written to it, and a write leaves every other byte alone. -/
theorem Memory.read_write {m : Memory} (h : m.wf) (a : Nat) (b : Byte) (x : Nat) :
    (m.write a b).read x = if x = a then b else m.read x := by
  induction m with
  | nil =>
    simp only [Memory.write]
    split <;> simp [Memory.read, *, eq_comm]
  | cons d rest ih =>
    obtain ⟨hlt, hne, hrest⟩ := Memory.wf_cons.1 h
    obtain ⟨i, c⟩ := d
    have ihr := ih hrest
    simp only at hlt
    have hlow : x ≤ i → Memory.read rest x = resetByte := fun hx =>
      Memory.read_of_lt fun e he => by have := hlt e he; omega
    simp only [Memory.write]
    split
    · split
      · simp only [Memory.read]
        by_cases hx : x = a
        · subst hx
          rw [if_neg (by omega), hlow (by omega)]; simp [*]
        · simp [hx]
      · simp only [Memory.read]
        rcases eq_or_ne x a with rfl | hx
        · simp
        · simp [hx, hx.symm]
    · split
      · subst_vars
        split
        · by_cases hx : x = i
          · subst hx; rw [hlow (by omega)]; simp [*]
          · simp [Memory.read, hx, Ne.symm hx]
        · simp only [Memory.read]
          rcases eq_or_ne x i with rfl | hx
          · simp
          · simp [hx, hx.symm]
      · simp only [Memory.read, ihr]
        by_cases hx : i = x
        · subst hx; rw [if_pos rfl, if_neg (by omega)]; simp
        · simp [hx]

/-- Two buffers in canonical form that read alike are equal. -/
theorem Memory.ext {m n : Memory} (hm : m.wf) (hn : n.wf) (h : ∀ a, m.read a = n.read a) : m = n := by
  induction m generalizing n with
  | nil =>
    cases n with
    | nil => rfl
    | cons d rest =>
      have := h d.1
      simp [Memory.read] at this
      exact absurd this.symm (Memory.wf_cons.1 hn).2.1
  | cons c ms ih =>
    cases n with
    | nil =>
      have := h c.1
      simp [Memory.read] at this
      exact absurd this (Memory.wf_cons.1 hm).2.1
    | cons d ns =>
      obtain ⟨i, b⟩ := c
      obtain ⟨j, e⟩ := d
      obtain ⟨hi, hb, hms⟩ := Memory.wf_cons.1 hm
      obtain ⟨hj, he, hns⟩ := Memory.wf_cons.1 hn
      simp only at hi hb hj he
      have hij : i = j := by
        rcases Nat.lt_trichotomy i j with hlt | heq | hgt
        · have := h i
          simp only [Memory.read, if_true] at this
          rw [if_neg (by omega), Memory.read_of_lt (fun x hx => by have := hj x hx; omega)] at this
          exact absurd this hb
        · exact heq
        · have := h j
          simp only [Memory.read, if_true] at this
          rw [if_neg (by omega), Memory.read_of_lt (fun x hx => by have := hi x hx; omega)] at this
          exact absurd this.symm he
      subst hij
      have hbe : b = e := by simpa [Memory.read] using h i
      subst hbe
      have : ms = ns := ih hms hns fun a => by
        by_cases ha : i = a
        · subst ha
          rw [Memory.read_of_lt hi, Memory.read_of_lt hj]
        · simpa [Memory.read, ha] using h a
      rw [this]

/-- R46: the bit written reads as the value written, and the byte's other bits are unchanged. -/
theorem getLsbD_byteWithBit (old : Byte) (k : Nat) (v : Bit) (j : Nat) (hk : k < 8) (hj : j < 8) :
    (byteWithBit old k v).getLsbD j = if j = k then v else old.getLsbD j := by
  have key : ∀ (k j : Fin 8), ∀ v : Bool, ∀ old : BitVec 8,
      (byteWithBit old k v).getLsbD j = if j.val = k.val then v else old.getLsbD j := by
    intro k j v old
    simp only [byteWithBit, BitVec.getLsbD_or, BitVec.getLsbD_and, BitVec.getLsbD_not, BitVec.getLsbD_shiftLeft,
      BitVec.getLsbD_setWidth, BitVec.getLsbD_one, BitVec.getLsbD_ofBool]
    have hj := j.isLt
    by_cases hjk : j.val = k.val
    · simp [hjk]
    · rcases Nat.lt_or_gt_of_ne hjk with h | h
      · simp [hjk, h]
      · have : ¬ j.val < k.val := by omega
        have h0 : ¬ (j.val - k.val = 0) := by omega
        simp [hjk, this, h0]
  exact key ⟨k, hk⟩ ⟨j, hj⟩ v old

/-- A bit written keeps the canonical form. -/
theorem Memory.wf_withBit {m : Memory} (h : m.wf) (i k : Nat) (v : Bit) : (m.withBit i k v).wf := Memory.wf_write h _ _

/-- `buf[i][k] <- v` changes that bit and no other. -/
theorem Memory.bit_withBit {m : Memory} (h : m.wf) (i k : Nat) (v : Bit) (hk : k < 8) (a j : Nat) (hj : j < 8) :
    (m.withBit i k v).bit a j = if a = i ∧ j = k then v else m.bit a j := by
  simp only [Memory.bit, Memory.withBit, Memory.read_write h]
  by_cases ha : a = i
  · subst ha; simp [getLsbD_byteWithBit _ _ _ _ hk hj]
  · simp [ha]

/-- `buf[i][k] <- v` leaves every byte but `buf[i]` as it was. -/
theorem Memory.read_withBit_of_ne {m : Memory} (h : m.wf) {i a : Nat} (k : Nat) (v : Bit) (ha : a ≠ i) :
    (m.withBit i k v).read a = m.read a := by
  simp [Memory.withBit, Memory.read_write h, ha]

/-- A bit written below `n` lists no byte at or above `n`. -/
theorem Memory.lt_withBit {m : Memory} {n i : Nat} (h : ∀ c ∈ m, c.1 < n) (hi : i < n) (k : Nat) (v : Bit) :
    ∀ c ∈ m.withBit i k v, c.1 < n := fun c hc => by
  rcases Memory.mem_write hc with hc | rfl
  · exact h c hc
  · exact hi

/-- Two bytes with the same bits are equal, so two canonical buffers with the same bits are equal. -/
theorem Memory.ext_bit {m n : Memory} (hm : m.wf) (hn : n.wf) (h : ∀ a j, j < 8 → m.bit a j = n.bit a j) : m = n :=
  Memory.ext hm hn fun a => BitVec.eq_of_getLsbD_eq fun j hj => h a j hj

end Sys2Proof.Machine
end

