-- ==== Sys2Proof/Laws/State.lean ====
section
/-! SUPPORT. What each named operation leaves in each field of the state, true by rfl, so that no proof unfolds a record
update. -/

namespace Sys2Proof.Machine

@[simp] theorem Pins.set_data {α : Type} (v : Pins α) (x : α) : v.set .data x = { v with data := x } := rfl
@[simp] theorem Pins.set_clk {α : Type} (v : Pins α) (x : α) : v.set .clk x = { v with clk := x } := rfl
@[simp] theorem Pins.set_latch {α : Type} (v : Pins α) (x : α) : v.set .latch x = { v with latch := x } := rfl
@[simp] theorem Pins.get_data {α : Type} (v : Pins α) : v.get .data = v.data := rfl
@[simp] theorem Pins.get_clk {α : Type} (v : Pins α) : v.get .clk = v.clk := rfl
@[simp] theorem Pins.get_latch {α : Type} (v : Pins α) : v.get .latch = v.latch := rfl

@[simp] theorem State.drive_straps (s : State) (p : Pin) (l : Bit) : (s.drive p l).straps = s.straps := rfl
@[simp] theorem State.drive_buf (s : State) (p : Pin) (l : Bit) : (s.drive p l).buf = s.buf := rfl
@[simp] theorem State.drive_cnt (s : State) (p : Pin) (l : Bit) : (s.drive p l).cnt = s.cnt := rfl
@[simp] theorem State.drive_dir (s : State) (p : Pin) (l : Bit) : (s.drive p l).dir = s.dir := rfl
@[simp] theorem State.drive_lvl (s : State) (p : Pin) (l : Bit) : (s.drive p l).lvl = s.lvl.set p l := rfl
@[simp] theorem State.drive_trace (s : State) (p : Pin) (l : Bit) : (s.drive p l).trace = s.trace ++ [.drv p l] := rfl
@[simp] theorem State.drive_responses (s : State) (p : Pin) (l : Bit) : (s.drive p l).responses = s.responses := rfl
@[simp] theorem State.drive_earlier (s : State) (p : Pin) (l : Bit) : (s.drive p l).earlier = s.earlier := rfl
@[simp] theorem State.drive_moves (s : State) (p : Pin) (l : Bit) : (s.drive p l).moves = s.moves := rfl
@[simp] theorem State.drive_injected (s : State) (p : Pin) (l : Bit) : (s.drive p l).injected = s.injected := rfl
@[simp] theorem State.drive_draws (s : State) (p : Pin) (l : Bit) : (s.drive p l).draws = s.draws := rfl

@[simp] theorem State.setDir_straps (s : State) (p : Pin) (d : Dir) : (s.setDir p d).straps = s.straps := rfl
@[simp] theorem State.setDir_buf (s : State) (p : Pin) (d : Dir) : (s.setDir p d).buf = s.buf := rfl
@[simp] theorem State.setDir_cnt (s : State) (p : Pin) (d : Dir) : (s.setDir p d).cnt = s.cnt := rfl
@[simp] theorem State.setDir_dir (s : State) (p : Pin) (d : Dir) : (s.setDir p d).dir = s.dir.set p d := rfl
@[simp] theorem State.setDir_lvl (s : State) (p : Pin) (d : Dir) : (s.setDir p d).lvl = s.lvl := rfl
@[simp] theorem State.setDir_trace (s : State) (p : Pin) (d : Dir) : (s.setDir p d).trace = s.trace ++ [.dir p d] := rfl
@[simp] theorem State.setDir_responses (s : State) (p : Pin) (d : Dir) : (s.setDir p d).responses = s.responses := rfl
@[simp] theorem State.setDir_earlier (s : State) (p : Pin) (d : Dir) : (s.setDir p d).earlier = s.earlier := rfl
@[simp] theorem State.setDir_moves (s : State) (p : Pin) (d : Dir) : (s.setDir p d).moves = s.moves := rfl
@[simp] theorem State.setDir_injected (s : State) (p : Pin) (d : Dir) : (s.setDir p d).injected = s.injected := rfl
@[simp] theorem State.setDir_draws (s : State) (p : Pin) (d : Dir) : (s.setDir p d).draws = s.draws := rfl

@[simp] theorem State.pulse_straps (s : State) (p : Pin) : (s.pulse p).straps = s.straps := rfl
@[simp] theorem State.pulse_buf (s : State) (p : Pin) : (s.pulse p).buf = s.buf := rfl
@[simp] theorem State.pulse_cnt (s : State) (p : Pin) : (s.pulse p).cnt = s.cnt := rfl
@[simp] theorem State.pulse_dir (s : State) (p : Pin) : (s.pulse p).dir = s.dir := rfl
@[simp] theorem State.pulse_lvl (s : State) (p : Pin) : (s.pulse p).lvl = (s.lvl.set p true).set p false := rfl
@[simp] theorem State.pulse_trace (s : State) (p : Pin) : (s.pulse p).trace = s.trace ++ [.drv p true] ++ [.drv p false] := rfl
@[simp] theorem State.pulse_responses (s : State) (p : Pin) : (s.pulse p).responses = s.responses := rfl
@[simp] theorem State.pulse_earlier (s : State) (p : Pin) : (s.pulse p).earlier = s.earlier := rfl
@[simp] theorem State.pulse_moves (s : State) (p : Pin) : (s.pulse p).moves = s.moves := rfl
@[simp] theorem State.pulse_injected (s : State) (p : Pin) : (s.pulse p).injected = s.injected := rfl
@[simp] theorem State.pulse_draws (s : State) (p : Pin) : (s.pulse p).draws = s.draws := rfl

@[simp] theorem State.takeDraws_straps (s : State) (n : Nat) : (s.takeDraws n).straps = s.straps := rfl
@[simp] theorem State.takeDraws_buf (s : State) (n : Nat) : (s.takeDraws n).buf = s.buf := rfl
@[simp] theorem State.takeDraws_cnt (s : State) (n : Nat) : (s.takeDraws n).cnt = s.cnt := rfl
@[simp] theorem State.takeDraws_dir (s : State) (n : Nat) : (s.takeDraws n).dir = s.dir := rfl
@[simp] theorem State.takeDraws_lvl (s : State) (n : Nat) : (s.takeDraws n).lvl = s.lvl := rfl
@[simp] theorem State.takeDraws_trace (s : State) (n : Nat) : (s.takeDraws n).trace = s.trace := rfl
@[simp] theorem State.takeDraws_responses (s : State) (n : Nat) : (s.takeDraws n).responses = s.responses := rfl
@[simp] theorem State.takeDraws_earlier (s : State) (n : Nat) : (s.takeDraws n).earlier = s.earlier := rfl
@[simp] theorem State.takeDraws_moves (s : State) (n : Nat) : (s.takeDraws n).moves = s.moves := rfl
@[simp] theorem State.takeDraws_injected (s : State) (n : Nat) : (s.takeDraws n).injected = s.injected.drop n := rfl
@[simp] theorem State.takeDraws_draws (s : State) (n : Nat) : (s.takeDraws n).draws = s.draws + n := rfl

@[simp] theorem State.sample_snd_straps (s : State) (p : Pin) : (s.sample p).2.straps = s.straps := rfl
@[simp] theorem State.sample_snd_buf (s : State) (p : Pin) : (s.sample p).2.buf = s.buf := rfl
@[simp] theorem State.sample_snd_cnt (s : State) (p : Pin) : (s.sample p).2.cnt = s.cnt := rfl
@[simp] theorem State.sample_snd_dir (s : State) (p : Pin) : (s.sample p).2.dir = s.dir := rfl
@[simp] theorem State.sample_snd_lvl (s : State) (p : Pin) : (s.sample p).2.lvl = s.lvl := rfl
@[simp] theorem State.sample_snd_trace (s : State) (p : Pin) : (s.sample p).2.trace = s.trace ++ [.smp p (s.inbit 0)] := rfl
@[simp] theorem State.sample_snd_responses (s : State) (p : Pin) : (s.sample p).2.responses = s.responses := rfl
@[simp] theorem State.sample_snd_earlier (s : State) (p : Pin) : (s.sample p).2.earlier = s.earlier := rfl
@[simp] theorem State.sample_snd_moves (s : State) (p : Pin) : (s.sample p).2.moves = s.moves := rfl
@[simp] theorem State.sample_snd_injected (s : State) (p : Pin) : (s.sample p).2.injected = s.injected.drop 1 := rfl
@[simp] theorem State.sample_snd_draws (s : State) (p : Pin) : (s.sample p).2.draws = s.draws + 1 := rfl

@[simp] theorem State.answer_straps (s : State) (st : Status) (b : Bit) : (s.answer st b).straps = s.straps := rfl
@[simp] theorem State.answer_buf (s : State) (st : Status) (b : Bit) : (s.answer st b).buf = s.buf := rfl
@[simp] theorem State.answer_cnt (s : State) (st : Status) (b : Bit) : (s.answer st b).cnt = s.cnt := rfl
@[simp] theorem State.answer_dir (s : State) (st : Status) (b : Bit) : (s.answer st b).dir = s.dir := rfl
@[simp] theorem State.answer_lvl (s : State) (st : Status) (b : Bit) : (s.answer st b).lvl = s.lvl := rfl
@[simp] theorem State.answer_trace (s : State) (st : Status) (b : Bit) : (s.answer st b).trace = s.trace := rfl
@[simp] theorem State.answer_responses (s : State) (st : Status) (b : Bit) : (s.answer st b).responses = s.responses ++ [responseWord st b] := rfl
@[simp] theorem State.answer_earlier (s : State) (st : Status) (b : Bit) : (s.answer st b).earlier = s.earlier := rfl
@[simp] theorem State.answer_moves (s : State) (st : Status) (b : Bit) : (s.answer st b).moves = s.moves := rfl
@[simp] theorem State.answer_injected (s : State) (st : Status) (b : Bit) : (s.answer st b).injected = s.injected := rfl
@[simp] theorem State.answer_draws (s : State) (st : Status) (b : Bit) : (s.answer st b).draws = s.draws := rfl

@[simp] theorem State.setIndexBit_straps (s : State) (p : Nat) (v : Bit) : (s.setIndexBit p v).straps = s.straps := rfl
@[simp] theorem State.setIndexBit_buf (s : State) (p : Nat) (v : Bit) : (s.setIndexBit p v).buf = s.buf.withBit (byteOf p) (bitOf p) v := rfl
@[simp] theorem State.setIndexBit_cnt (s : State) (p : Nat) (v : Bit) : (s.setIndexBit p v).cnt = s.cnt := rfl
@[simp] theorem State.setIndexBit_dir (s : State) (p : Nat) (v : Bit) : (s.setIndexBit p v).dir = s.dir := rfl
@[simp] theorem State.setIndexBit_lvl (s : State) (p : Nat) (v : Bit) : (s.setIndexBit p v).lvl = s.lvl := rfl
@[simp] theorem State.setIndexBit_trace (s : State) (p : Nat) (v : Bit) : (s.setIndexBit p v).trace = s.trace := rfl
@[simp] theorem State.setIndexBit_responses (s : State) (p : Nat) (v : Bit) : (s.setIndexBit p v).responses = s.responses := rfl
@[simp] theorem State.setIndexBit_earlier (s : State) (p : Nat) (v : Bit) : (s.setIndexBit p v).earlier = s.earlier := rfl
@[simp] theorem State.setIndexBit_moves (s : State) (p : Nat) (v : Bit) : (s.setIndexBit p v).moves = s.moves := rfl
@[simp] theorem State.setIndexBit_injected (s : State) (p : Nat) (v : Bit) : (s.setIndexBit p v).injected = s.injected := rfl
@[simp] theorem State.setIndexBit_draws (s : State) (p : Nat) (v : Bit) : (s.setIndexBit p v).draws = s.draws := rfl

@[simp] theorem State.sample_fst (s : State) (p : Pin) : (s.sample p).1 = s.inbit 0 := rfl

/-- Reading a draw later is reading the later draw. -/
theorem State.inbit_takeDraws (s : State) (n t : Nat) : (s.takeDraws n).inbit t = s.inbit (n + t) := by
  simp [State.inbit, Nat.add_assoc]

/-- The draws to come depend on the injected bits and the count of draws alone. -/
theorem State.inbit_congr {s t : State} (hi : s.injected = t.injected) (hd : s.draws = t.draws) (k : Nat) :
    s.inbit k = t.inbit k := by
  simp [State.inbit, hi, hd]

end Sys2Proof.Machine
end

