-- ==== Sys2Proof/Laws/Input.lean ====
section
/-! SUPPORT. What a refresh does, said once: the state it leaves, the bits it captures and the events it appends. -/

namespace Sys2Proof.Machine

/-- The buffer after the first `n` samples of a refresh, in their serial order (R43). -/
def captured (m : Memory) (inbits : Nat → Bit) (n : Nat) : Memory :=
  (List.range n).foldl (fun m t => m.withBit (t / 8) (7 - t % 8) (inbits t)) m

theorem captured_succ (m : Memory) (inbits : Nat → Bit) (n : Nat) :
    captured m inbits (n + 1) = (captured m inbits n).withBit (n / 8) (7 - n % 8) (inbits n) := by
  simp [captured, List.range_succ]

/-- A refresh keeps the canonical form of the buffer. -/
theorem wf_captured {m : Memory} (h : m.wf) (inbits : Nat → Bit) (n : Nat) : (captured m inbits n).wf := by
  induction n with
  | zero => exact h
  | succ n ih => rw [captured_succ]; exact Memory.wf_withBit ih _ _ _

/-- R43: a bit sampled reads as its sample, and a bit not sampled is unchanged. -/
theorem bit_captured {m : Memory} (h : m.wf) (inbits : Nat → Bit) (n a k : Nat) (hk : k < 8) :
    (captured m inbits n).bit a k = if 8 * a + (7 - k) < n then inbits (8 * a + (7 - k)) else m.bit a k := by
  induction n with
  | zero => simp [captured]
  | succ n ih =>
    rw [captured_succ, Memory.bit_withBit (wf_captured h _ _) _ _ _ (by omega) _ _ hk, ih]
    by_cases hn : 8 * a + (7 - k) = n
    · rw [if_pos (by omega), if_pos (by omega), hn]
    · rw [if_neg (by omega)]
      by_cases hlt : 8 * a + (7 - k) < n
      · rw [if_pos hlt, if_pos (by omega)]
      · rw [if_neg hlt, if_neg (by omega)]

/-- A refresh lists no byte outside the buffer. -/
theorem lt_captured {m : Memory} {n : Nat} (h : ∀ c ∈ m, c.1 < n) (inbits : Nat → Bit) :
    ∀ k ≤ 8 * n, ∀ c ∈ captured m inbits k, c.1 < n := fun k => by
  induction k with
  | zero => exact fun _ => h
  | succ k ih =>
    intro hk
    rw [captured_succ]
    exact Memory.lt_withBit (ih (by omega)) (by omega) _ _

/-- A refresh leaves every byte past the buffer as it was. -/
theorem read_captured_of_le {m : Memory} (h : m.wf) (inbits : Nat → Bit) {n a : Nat} (ha : n ≤ a) :
    (captured m inbits (8 * n)).read a = m.read a :=
  BitVec.eq_of_getLsbD_eq fun k hk => by
    have := bit_captured h inbits (8 * n) a k hk
    rw [if_neg (by omega)] at this
    exact this

/-- R102: one bit period, one draw, and the bit stored. -/
theorem State.scanInto_eq (s : State) (i k : Nat) :
    s.scanInto i k =
      { s.takeDraws 1 with
        buf := s.buf.withBit i k (s.inbit 0)
        lvl := { s.lvl with clk := false }
        trace := s.trace ++ scanPeriod s.straps.samplePoint (s.inbit 0) } := by
  cases hp : s.straps.samplePoint <;>
    simp [State.scanInto, State.scanBit, hp, State.sample, State.inbit, State.drive, State.takeDraws, scanPeriod]

/-- The first `n` samples of a scan, one after the other. -/
theorem State.scanBits_eq (n : Nat) (s : State) (hc : s.lvl.clk = false) :
    (List.range n).foldl (fun s t => s.scanInto (t / 8) (7 - t % 8)) s =
      { s.takeDraws n with
        buf := captured s.buf s.inbit n
        trace := s.trace ++ (List.range n).flatMap fun t => scanPeriod s.straps.samplePoint (s.inbit t) } := by
  induction n with
  | zero => simp [captured, State.takeDraws]
  | succ n ih =>
    rw [List.range_succ, List.foldl_append, ih]
    have hin : ∀ (b : Memory) (tr : List Event),
        State.inbit { s.takeDraws n with buf := b, trace := tr } 0 = s.inbit n := fun b tr => by
      rw [← Nat.add_zero n, ← State.inbit_takeDraws]; exact State.inbit_congr (by simp) (by simp) 0
    simp only [List.foldl_cons, List.foldl_nil, State.scanInto_eq, hin, captured_succ, List.flatMap_append,
      List.flatMap_singleton, List.append_assoc]
    simp [State.takeDraws, ← hc, Nat.add_assoc]

/-- R100: the scan of the whole buffer, in the serial order of its samples. -/
theorem State.scanBuffer_eq_scanBits (s : State) :
    s.scanBuffer = (List.range (8 * s.straps.chainLength)).foldl (fun s t => s.scanInto (t / 8) (7 - t % 8)) s := by
  rw [foldl_range_eight]
  have hbyte : ∀ (i : Nat) (u : State),
      (List.range 8).foldl (fun s j => s.scanInto ((8 * i + j) / 8) (7 - (8 * i + j) % 8)) u = u.scanByte i := by
    intro i u
    have hd : ∀ j < 8, (8 * i + j) / 8 = i ∧ (8 * i + j) % 8 = j := fun j hj => by omega
    simp [List.range_succ, State.scanByte, bitsDown, hd]
  unfold State.scanBuffer
  congr 1
  funext u i
  exact (hbyte i u).symm

/-- What `Refresh()` does (R100, R103): the bits it captures, the lines it leaves, the draws it takes, the events it
appends, and nothing else. -/
theorem State.refresh_eq (s : State) :
    s.refresh =
      { s.takeDraws (8 * s.straps.chainLength) with
        buf := captured s.buf s.inbit (8 * s.straps.chainLength)
        dir := if s.straps.mode = .dual then { s.dir with latch := .input } else s.dir
        lvl := { data := false, clk := false, latch := s.lvl.latch }
        trace := s.trace ++ refreshEvents s.straps s.inbit } := by
  have h : ∀ u : State, ((u.drive .clk false).pulse .data).lvl.clk = false := fun u => rfl
  unfold State.refresh
  rw [State.scanBuffer_eq_scanBits, State.scanBits_eq _ _ (h _)]
  have hin : ∀ u : State, State.inbit ((u.drive .clk false).pulse .data) = u.inbit := fun u => rfl
  have hin2 : State.inbit (s.setDir .latch .input) = s.inbit := rfl
  cases hm : s.straps.mode <;>
    simp [State.latchIn, hm, hin, hin2, refreshEvents] <;>
    simp [State.pulse, State.drive]

end Sys2Proof.Machine
end

