-- ==== Sys2Proof/Laws/Output.lean ====
section
/-! SUPPORT. What a flush does, said once: the state it leaves and the events it appends. -/

namespace Sys2Proof.Machine

theorem State.shiftOutBit_eq (s : State) (l : Bit) :
    s.shiftOutBit l = { s with lvl := { s.lvl with data := l, clk := false }, trace := s.trace ++ outPeriod l } := by
  simp [State.shiftOutBit, State.pulse, State.drive, outPeriod]

/-- R83: the 24 events of one byte, and the lines it leaves. -/
theorem State.shiftOutByte_eq (s : State) (b : Byte) :
    s.shiftOutByte b =
      { s with
        lvl := { s.lvl with data := b.getLsbD 0, clk := false }
        trace := s.trace ++ (List.range 8).flatMap fun j => outPeriod (b.getLsbD (7 - j)) } := by
  simp [State.shiftOutByte, bitsDown, State.shiftOutBit_eq, List.range_succ]

/-- R84 (2): the whole buffer sent, byte 0 first. -/
theorem State.shiftOutBytes_eq (n : Nat) (s : State) (hc : s.lvl.clk = false) :
    (List.range n).foldl (fun s i => s.shiftOutByte (s.buf.read i)) s =
      { s with
        lvl := { s.lvl with data := if n = 0 then s.lvl.data else s.buf.bit (n - 1) 0 }
        trace := s.trace ++ (List.range (8 * n)).flatMap fun t => outPeriod (serialOut s.buf t) } := by
  induction n with
  | zero => simp
  | succ n ih =>
    rw [flatMap_range_eight] at ih ⊢
    rw [List.range_succ, List.foldl_append, ih]
    have : ∀ j ∈ List.range 8, (8 * n + j) / 8 = n ∧ (8 * n + j) % 8 = j := fun j hj => by
      have := List.mem_range.1 hj; omega
    simp only [List.foldl_cons, List.foldl_nil, State.shiftOutByte_eq, List.flatMap_append, List.flatMap_singleton,
      Nat.succ_ne_zero, if_false, Nat.add_sub_cancel, List.append_assoc, hc]
    congr 2
    simp only [Memory.bit, serialOut, List.append_cancel_left_eq]
    exact List.flatMap_congr fun j hj => by rw [(this j hj).1, (this j hj).2]

/-- What `Flush()` does (R84, R85): the lines it leaves, the events it appends, and nothing else. -/
theorem State.flush_eq (s : State) :
    s.flush =
      { s with
        dir := if s.straps.mode = .dual then { s.dir with latch := .output } else s.dir
        lvl :=
          { data := if s.straps.chainLength = 0 then s.lvl.data else s.buf.bit (s.straps.chainLength - 1) 0
            clk := false
            latch := false }
        trace := s.trace ++ flushEvents s.straps s.buf } := by
  have h : ∀ u : State, (u.drive .clk false).lvl.clk = false := fun u => rfl
  unfold State.flush State.shiftOutBuffer
  rw [State.shiftOutBytes_eq _ _ (h _)]
  cases hm : s.straps.mode <;>
    simp [State.latchOut, hm, State.pulse, State.drive, State.setDir, flushEvents]

end Sys2Proof.Machine
end

