-- ==== Sys2Proof/Laws/Exec.lean ====
section
/-! SUPPORT. What a command can do, said once: an error that changes nothing but the response, or the one effect of its
command; and what a step can do. -/

namespace Sys2Proof.Machine

theorem not_acceptsOutput {m : Mode} : acceptsOutput m = false ↔ m = .input := by cases m <;> simp [acceptsOutput]

theorem not_acceptsInput {m : Mode} : acceptsInput m = false ↔ m = .output := by cases m <;> simp [acceptsInput]

theorem acceptsOutput_iff {m : Mode} : acceptsOutput m = true ↔ m ≠ .input := by cases m <;> simp [acceptsOutput]

theorem acceptsInput_iff {m : Mode} : acceptsInput m = true ↔ m ≠ .output := by cases m <;> simp [acceptsInput]

theorem State.inRange_iff {s : State} {idx : Index} : s.inRange idx = true ↔ idx.toNat < 8 * s.straps.chainLength :=
  decide_eq_true_iff

theorem State.inRange_false {s : State} {idx : Index} :
    s.inRange idx = false ↔ 8 * s.straps.chainLength ≤ idx.toNat := by
  rw [← Bool.not_eq_true, State.inRange_iff, Nat.not_lt]

theorem Straps.legal_iff {c : Straps} : c.legal = true ↔ 1 ≤ c.chainLength ∧ c.chainLength ≤ 8191 := by
  simp [Straps.legal]

/-- SET, in its three cases (R80). -/
theorem execSet_eq (idx : Index) (v : Bit) (s : State) :
    execSet idx v s =
      if s.straps.mode = .input then .next (s.answer .errMode false)
      else if 8 * s.straps.chainLength ≤ idx.toNat then .next (s.answer .errRange false)
      else .next ((s.setIndexBit idx.toNat v).answer .ok false) := by
  cases hm : s.straps.mode <;> simp [execSet, hm, acceptsOutput, State.inRange_false, pinIndex, raise, respondOk]

/-- WRITE, in its three cases (R81). -/
theorem execWrite_eq (idx : Index) (v : Bit) (s : State) :
    execWrite idx v s =
      if s.straps.mode = .input then .next (s.answer .errMode false)
      else if 8 * s.straps.chainLength ≤ idx.toNat then .next (s.answer .errRange false)
      else .next ((s.setIndexBit idx.toNat v).flush.answer .ok false) := by
  cases hm : s.straps.mode <;> simp [execWrite, hm, acceptsOutput, State.inRange_false, pinIndex, raise, respondOk]

/-- FLUSH, in its two cases (R82). -/
theorem execFlush_eq (s : State) :
    execFlush s =
      if s.straps.mode = .input then .next (s.answer .errMode false) else .next (s.flush.answer .ok false) := by
  cases hm : s.straps.mode <;> simp [execFlush, hm, acceptsOutput, raise, respondOk]

/-- REFRESH, in its two cases (R101). -/
theorem execRefresh_eq (s : State) :
    execRefresh s =
      if s.straps.mode = .output then .next (s.answer .errMode false) else .next (s.refresh.answer .ok false) := by
  cases hm : s.straps.mode <;> simp [execRefresh, hm, acceptsInput, raise, respondOk]

/-- READBIT, in its three cases (R106). -/
theorem execReadbit_eq (idx : Index) (s : State) :
    execReadbit idx s =
      if s.straps.mode = .output then .next (s.answer .errMode false)
      else if 8 * s.straps.chainLength ≤ idx.toNat then .next (s.answer .errRange false)
      else .next (s.countRead.answer .ok (s.countRead.indexBit idx.toNat)) := by
  cases hm : s.straps.mode <;> simp [execReadbit, hm, acceptsInput, State.inRange_false, pinIndex, raise, respondOk]

/-- R105: the value the counter restarts at, for a legal chain length. -/
theorem restart_toNat {n : Nat} (h1 : 1 ≤ n) (h2 : n ≤ 8191) :
    ((BitVec.ofNat 16 n <<< 3) - 1#16).toNat = 8 * n - 1 := by
  simp [BitVec.toNat_sub, BitVec.toNat_shiftLeft, Nat.shiftLeft_eq]
  omega

/-- SET where it succeeds (R80). -/
theorem exec_set_ok {s : State} {idx : Index} (v : Bit) (hm : s.straps.mode ≠ .input)
    (hr : idx.toNat < 8 * s.straps.chainLength) :
    exec (.set idx v) s = .next ((s.setIndexBit idx.toNat v).answer .ok false) := by
  rw [exec, execSet_eq, if_neg hm, if_neg (Nat.not_le.2 hr)]

/-- WRITE where it succeeds (R81). -/
theorem exec_write_ok {s : State} {idx : Index} (v : Bit) (hm : s.straps.mode ≠ .input)
    (hr : idx.toNat < 8 * s.straps.chainLength) :
    exec (.write idx v) s = .next ((s.setIndexBit idx.toNat v).flush.answer .ok false) := by
  rw [exec, execWrite_eq, if_neg hm, if_neg (Nat.not_le.2 hr)]

/-- FLUSH where it succeeds (R82). -/
theorem exec_flush_ok {s : State} (hm : s.straps.mode ≠ .input) :
    exec .flush s = .next (s.flush.answer .ok false) := by
  rw [exec, execFlush_eq, if_neg hm]

/-- REFRESH where it succeeds (R101). -/
theorem exec_refresh_ok {s : State} (hm : s.straps.mode ≠ .output) :
    exec .refresh s = .next (s.refresh.answer .ok false) := by
  rw [exec, execRefresh_eq, if_neg hm]

/-- READBIT where it succeeds (R106). -/
theorem exec_readbit_ok {s : State} {idx : Index} (hm : s.straps.mode ≠ .output)
    (hr : idx.toNat < 8 * s.straps.chainLength) :
    exec (.readbit idx) s = .next (s.countRead.answer .ok (s.countRead.indexBit idx.toNat)) := by
  rw [exec, execReadbit_eq, if_neg hm, if_neg (Nat.not_le.2 hr)]

/-- A READBIT with the counter run down refreshes (R106). -/
theorem State.countRead_of_zero {s : State} (h : s.cnt = 0#16) :
    s.countRead = { s.refresh with cnt := (BitVec.ofNat 16 s.straps.chainLength <<< 3) - 1#16 } := by
  rw [State.countRead, if_pos h]

/-- A READBIT with the counter not run down only counts (R107 (d)). -/
theorem State.countRead_of_ne {s : State} (h : s.cnt ≠ 0#16) : s.countRead = { s with cnt := s.cnt - 1#16 } := by
  rw [State.countRead, if_neg h]

/-- R105: counting down from 1 or more does not wrap. -/
theorem toNat_sub_one {c : BitVec 16} (h : c ≠ 0#16) : 1 ≤ c.toNat ∧ (c - 1#16).toNat = c.toNat - 1 := by
  have h1 : c.toNat ≠ 0 := fun h0 => h (BitVec.eq_of_toNat_eq (by simpa using h0))
  have := c.isLt
  refine ⟨by omega, ?_⟩
  rw [BitVec.toNat_sub]; simp; omega

/-- A sequence of commands run in two parts. -/
theorem execAll_append (is js : List Instr) (s : State) :
    execAll (is ++ js) s =
      match execAll is s with
      | .next t => execAll js t
      | .fault r => .fault r
      | .refused r => .refused r := by
  induction is generalizing s with
  | nil => rfl
  | cons i is ih => simp only [List.cons_append, execAll]; cases exec i s <;> simp [ih]

/-- What a command can do: it answers an error and changes nothing else, or it has the one effect of its rule. -/
theorem exec_cases (i : Instr) (s : State) :
    (∃ st, st ≠ .ok ∧ exec i s = .next (s.answer st false)) ∨
    (∃ idx v, i = .set idx v ∧ s.straps.mode ≠ .input ∧ idx.toNat < 8 * s.straps.chainLength ∧
      exec i s = .next ((s.setIndexBit idx.toNat v).answer .ok false)) ∨
    (∃ idx v, i = .write idx v ∧ s.straps.mode ≠ .input ∧ idx.toNat < 8 * s.straps.chainLength ∧
      exec i s = .next ((s.setIndexBit idx.toNat v).flush.answer .ok false)) ∨
    (i = .flush ∧ s.straps.mode ≠ .input ∧ exec i s = .next (s.flush.answer .ok false)) ∨
    (i = .refresh ∧ s.straps.mode ≠ .output ∧ exec i s = .next (s.refresh.answer .ok false)) ∨
    (∃ idx, i = .readbit idx ∧ s.straps.mode ≠ .output ∧ idx.toNat < 8 * s.straps.chainLength ∧
      exec i s = .next (s.countRead.answer .ok (s.countRead.indexBit idx.toNat))) := by
  cases i with
  | set idx v =>
    simp only [exec, execSet_eq]
    by_cases hm : s.straps.mode = .input
    · exact .inl ⟨.errMode, by decide, by simp [hm]⟩
    · by_cases hr : 8 * s.straps.chainLength ≤ idx.toNat
      · exact .inl ⟨.errRange, by decide, by simp [hm, hr]⟩
      · exact .inr (.inl ⟨idx, v, rfl, hm, by omega, by simp [hm, hr]⟩)
  | write idx v =>
    simp only [exec, execWrite_eq]
    by_cases hm : s.straps.mode = .input
    · exact .inl ⟨.errMode, by decide, by simp [hm]⟩
    · by_cases hr : 8 * s.straps.chainLength ≤ idx.toNat
      · exact .inl ⟨.errRange, by decide, by simp [hm, hr]⟩
      · exact .inr (.inr (.inl ⟨idx, v, rfl, hm, by omega, by simp [hm, hr]⟩))
  | flush =>
    simp only [exec, execFlush_eq]
    by_cases hm : s.straps.mode = .input
    · exact .inl ⟨.errMode, by decide, by simp [hm]⟩
    · exact .inr (.inr (.inr (.inl ⟨trivial, hm, by simp [hm]⟩)))
  | refresh =>
    simp only [exec, execRefresh_eq]
    by_cases hm : s.straps.mode = .output
    · exact .inl ⟨.errMode, by decide, by simp [hm]⟩
    · exact .inr (.inr (.inr (.inr (.inl ⟨trivial, hm, by simp [hm]⟩))))
  | readbit idx =>
    simp only [exec, execReadbit_eq]
    by_cases hm : s.straps.mode = .output
    · exact .inl ⟨.errMode, by decide, by simp [hm]⟩
    · by_cases hr : 8 * s.straps.chainLength ≤ idx.toNat
      · exact .inl ⟨.errRange, by decide, by simp [hm, hr]⟩
      · exact .inr (.inr (.inr (.inr (.inr ⟨idx, rfl, hm, by omega, by simp [hm, hr]⟩))))

/-- Every command answers a next state: the controller never halts or aborts (R120). -/
theorem exec_next (i : Instr) (s : State) : ∃ t, exec i s = .next t := by
  obtain ⟨_, _, h⟩ | ⟨_, _, _, _, _, h⟩ | ⟨_, _, _, _, _, h⟩ | ⟨_, _, h⟩ | ⟨_, _, h⟩ | ⟨_, _, _, _, h⟩ :=
    exec_cases i s <;> exact ⟨_, h⟩

/-- Every sequence of commands answers a next state. -/
theorem execAll_next (is : List Instr) (s : State) : ∃ t, execAll is s = .next t := by
  induction is generalizing s with
  | nil => exact ⟨s, rfl⟩
  | cons i is ih =>
    obtain ⟨u, hu⟩ := exec_next i s
    obtain ⟨t, ht⟩ := ih u
    exact ⟨t, by simp [execAll, hu, ht]⟩

/-- Every command word answers a next state. -/
theorem runWord_next (cmd : Word) (s : State) : ∃ t, runWord cmd s = .next t := by
  unfold runWord
  split
  · exact exec_next _ _
  · exact ⟨_, rfl⟩

/-- What a step that answers a next state can have done. -/
theorem step_cases {s t : State} (h : step s = .next t) :
    s.straps.legal = true ∧
    ((s.moves = [] ∧ t = s) ∨
     (∃ cmd rest, s.moves = .command cmd :: rest ∧ runWord cmd { s with moves := rest } = .next t) ∨
     (∃ c rest, s.moves = .reset c :: rest ∧ resetWith c { s with moves := rest } = .next t) ∨
     (∃ cmd k c rest, s.moves = .resetDuring cmd k c :: rest ∧
       ∃ done, runWord cmd { s with moves := rest } = .next done ∧
         resetWith c (State.cutShort { s with moves := rest } done k) = .next t)) := by
  unfold step at h
  split at h
  · refine ⟨‹_›, ?_⟩
    unfold nextMove at h
    split at h
    · exact .inl ⟨‹_›, by simpa using h.symm⟩
    · exact .inr (.inl ⟨_, _, ‹_›, h⟩)
    · exact .inr (.inr (.inl ⟨_, _, ‹_›, h⟩))
    · rename_i cmd k c rest hm
      obtain ⟨done, hd⟩ := runWord_next cmd { s with moves := rest }
      simp only [resetDuring, hd] at h
      exact .inr (.inr (.inr ⟨cmd, k, c, rest, hm, done, hd, h⟩))
  · cases h

end Sys2Proof.Machine
end

