-- ==== Sys2Proof/Laws/PerInstr.lean ====
section
/-! SUPPORT. The families of statements made instruction by instruction. `EncodeFields`: the fields of a command's word
are the command's opcode and operands, and zero elsewhere (spec/30_encoding.md R65, R66). -/

namespace Sys2Proof.Laws

/-- The four fields of a command's word. -/
def EncodeFields.Statement : Instr → Prop
  | .set idx v =>
    opField (encode (.set idx v)) = 1#4 ∧ rsvField (encode (.set idx v)) = 0#11 ∧
    valueField (encode (.set idx v)) = v ∧ indexField (encode (.set idx v)) = idx
  | .write idx v =>
    opField (encode (.write idx v)) = 2#4 ∧ rsvField (encode (.write idx v)) = 0#11 ∧
    valueField (encode (.write idx v)) = v ∧ indexField (encode (.write idx v)) = idx
  | .flush =>
    opField (encode .flush) = 3#4 ∧ rsvField (encode .flush) = 0#11 ∧
    valueField (encode .flush) = false ∧ indexField (encode .flush) = 0#16
  | .refresh =>
    opField (encode .refresh) = 4#4 ∧ rsvField (encode .refresh) = 0#11 ∧
    valueField (encode .refresh) = false ∧ indexField (encode .refresh) = 0#16
  | .readbit idx =>
    opField (encode (.readbit idx)) = 5#4 ∧ rsvField (encode (.readbit idx)) = 0#11 ∧
    valueField (encode (.readbit idx)) = false ∧ indexField (encode (.readbit idx)) = idx

theorem EncodeFields.set (idx : Index) (v : Bit) : EncodeFields.Statement (.set idx v) := fields_of_append 1#4 0#11 v idx

theorem EncodeFields.write (idx : Index) (v : Bit) : EncodeFields.Statement (.write idx v) :=
  fields_of_append 2#4 0#11 v idx

theorem EncodeFields.flush : EncodeFields.Statement .flush := fields_of_append 3#4 0#11 false 0#16

theorem EncodeFields.refresh : EncodeFields.Statement .refresh := fields_of_append 4#4 0#11 false 0#16

theorem EncodeFields.readbit (idx : Index) : EncodeFields.Statement (.readbit idx) := fields_of_append 5#4 0#11 false idx

end Sys2Proof.Laws
end

