-- ==== Sys2Proof/Laws/Trace.lean ====
section
/-! SUPPORT. The lines and the output chain over a list of events: what a flush and a refresh leave on the lines, when
their events obey the directions, and which events move the chain's outputs. -/

namespace Sys2Proof.Machine

theorem Lines.afterAll_append (l : Lines) (es fs : List Event) :
    l.afterAll (es ++ fs) = (l.afterAll es).afterAll fs := List.foldl_append

/-- After the first `n` bit periods of a flush DATA holds the last bit sent, and CLK is low again. -/
theorem Lines.afterAll_outPeriods (b : Nat → Bit) (n : Nat) (l : Lines) (hc : l.lvl.clk = false) :
    l.afterAll ((List.range n).flatMap fun t => outPeriod (b t)) =
      { l with lvl := { l.lvl with data := if n = 0 then l.lvl.data else b (n - 1) } } := by
  induction n with
  | zero => rfl
  | succ n ih =>
    rw [List.range_succ, List.flatMap_append, Lines.afterAll_append, ih]
    simp [Lines.afterAll, outPeriod, Lines.after, hc]

/-- The bit periods of a scan leave the lines as they were. -/
theorem Lines.afterAll_scanPeriods (sp : SamplePoint) (b : Nat → Bit) (n : Nat) (l : Lines) (hc : l.lvl.clk = false) :
    l.afterAll ((List.range n).flatMap fun t => scanPeriod sp (b t)) = l := by
  have hl : ({ l with lvl := { l.lvl with clk := false } } : Lines) = l := by rw [← hc]
  induction n with
  | zero => rfl
  | succ n ih =>
    rw [List.range_succ, List.flatMap_append, Lines.afterAll_append, ih]
    cases sp <;> simpa [Lines.afterAll, scanPeriod, Lines.after] using hl

/-- The last bit of a flush is bit 0 of the last byte (R42). -/
theorem serialOut_last (buf : Memory) {n : Nat} (h : n ≠ 0) : serialOut buf (8 * n - 1) = buf.bit (n - 1) 0 := by
  unfold serialOut; congr 1 <;> omega

/-- A flush's events leave the lines as the flush does. -/
theorem State.afterAll_flushEvents (s : State) :
    s.lines.afterAll (flushEvents s.straps s.buf) = s.flush.lines := by
  rw [State.flush_eq, flushEvents]
  simp only [Lines.afterAll_append]
  rw [Lines.afterAll_outPeriods _ _ _ rfl]
  by_cases hn : s.straps.chainLength = 0
  · split <;> simp [Lines.afterAll, Lines.after, State.lines, hn]
  · split <;> simp [Lines.afterAll, Lines.after, State.lines, hn, serialOut_last s.buf hn]

/-- A refresh's events leave the lines as the refresh does. -/
theorem State.afterAll_refreshEvents (s : State) :
    s.lines.afterAll (refreshEvents s.straps s.inbit) = s.refresh.lines := by
  rw [State.refresh_eq, refreshEvents]
  simp only [Lines.afterAll_append]
  rw [Lines.afterAll_scanPeriods _ _ _ _ rfl]
  split <;> simp [Lines.afterAll, Lines.after, State.lines]

/-- Whether events obey the directions is a question about each part, from the directions the earlier part leaves. -/
theorem obeysDirections_append (l : Lines) (es fs : List Event) :
    obeysDirections l.dir (es ++ fs) = (obeysDirections l.dir es && obeysDirections (l.afterAll es).dir fs) := by
  induction es generalizing l with
  | nil => simp [obeysDirections, Lines.afterAll]
  | cons e es ih =>
    have step := ih (l.after e)
    cases e with
    | drv p v =>
      simp only [List.cons_append, obeysDirections, Bool.and_assoc]
      exact congrArg _ step
    | dir p x => exact step
    | smp p v =>
      simp only [List.cons_append, obeysDirections, Bool.and_assoc]
      exact congrArg _ step

theorem obeysDirections_outPeriods {d : Pins Dir} (h1 : d.data = .output) (h2 : d.clk = .output) (b : Nat → Bit)
    (ts : List Nat) (rest : List Event) :
    obeysDirections d ((ts.flatMap fun t => outPeriod (b t)) ++ rest) = obeysDirections d rest := by
  induction ts with
  | nil => rfl
  | cons t ts ih =>
    rw [List.flatMap_cons, List.append_assoc, outPeriod]
    simp [obeysDirections, Pins.get, h1, h2, ih]

theorem obeysDirections_scanPeriods (sp : SamplePoint) {d : Pins Dir} (h1 : d.latch = .input) (h2 : d.clk = .output)
    (b : Nat → Bit) (ts : List Nat) (rest : List Event) :
    obeysDirections d ((ts.flatMap fun t => scanPeriod sp (b t)) ++ rest) = obeysDirections d rest := by
  induction ts with
  | nil => rfl
  | cons t ts ih =>
    rw [List.flatMap_cons, List.append_assoc, ← ih]
    generalize (ts.flatMap fun t => scanPeriod sp (b t)) ++ rest = more
    cases sp <;> simp [scanPeriod, obeysDirections, Pins.get, h1, h2]

theorem Chain.run_append (l : Lines) (c : Chain) (es fs : List Event) :
    Chain.run l c (es ++ fs) = Chain.run (l.afterAll es) (Chain.run l c es) fs := by
  induction es generalizing l c with
  | nil => rfl
  | cons e es ih => simp only [List.cons_append, Chain.run]; rw [ih]; rfl

/-- The outputs change at no event but a rising drive of LATCH (R136). -/
theorem Chain.run_out {es : List Event} (h : .drv .latch true ∉ es) (l : Lines) (c : Chain) :
    (Chain.run l c es).out = c.out := by
  induction es generalizing l c with
  | nil => rfl
  | cons e es ih =>
    obtain ⟨h1, h2⟩ := not_or.1 (List.mem_cons.not.1 h)
    rw [Chain.run, ih h2]
    cases e with
    | drv p v => cases p <;> cases v <;> simp [Chain.react] at *; split <;> rfl
    | dir p x => rfl
    | smp p v => rfl

/-- One bit period shifts one bit into the chain. -/
theorem Chain.run_outPeriod (l : Lines) (c : Chain) (x : Bit) (hc : l.lvl.clk = false) :
    (Chain.run l c (outPeriod x)).shift = x :: c.shift.dropLast := by
  simp [outPeriod, Chain.run, Lines.after, Chain.react, hc]

end Sys2Proof.Machine
end

