-- ==== Sys2Proof/Tests/Slice0.lean ====
section
/-! SUPPORT. The model's own tests. Expected values come from spec/95_test_vectors.md or, where said, by hand from the
rule named. The second half gives, for each obligation with hypotheses, a state and operands that meet them. -/

namespace Sys2Proof.Tests

open Sys2Proof.Machine

/-! ### Helpers -/

/-- A controller just reset with N, MODE and SAMPLE_POINT. -/
def board (n : Nat) (m : Mode) (sp : SamplePoint) : State := State.afterReset { chainLength := n, mode := m, samplePoint := sp }

/-- What a step's next state shows through `f`. -/
def seen {α : Type} (f : State → α) : Host.Outcome State Fault Refusal → Option α
  | .next t => some (f t)
  | .fault _ => none
  | .refused _ => none

def c0 : Event := .drv .clk false
def c1 : Event := .drv .clk true
def d0 : Event := .drv .data false
def d1 : Event := .drv .data true
def l0 : Event := .drv .latch false
def l1 : Event := .drv .latch true
def s0 : Event := .smp .latch false
def s1 : Event := .smp .latch true

/-- The bits 10110010 of spec/95_test_vectors.md section 6. -/
def inbits : List Bit := [true, false, true, true, false, false, true, false]

/-! ### Well-formedness: the straps (R153) -/

theorem test_legal_straps_bounds :
    Straps.legal ⟨1, .output, .afterFall⟩ = true ∧ Straps.legal ⟨8191, .input, .beforeRise⟩ = true := by decide

theorem test_straps_without_chips_refused : Straps.legal ⟨0, .dual, .whileHigh⟩ = false := by decide

theorem test_straps_with_too_many_chips_refused : Straps.legal ⟨8192, .dual, .afterFall⟩ = false := by decide

theorem test_step_refuses_illegal_straps :
    step (board 0 .dual .afterFall) = .refused .illegalConfiguration := rfl

/-! ### Decoding and encoding: words written out bit by bit from R65 and R66 -/

theorem test_set_word :
    decode (0b0001#4 ++ 0b00000000000#11 ++ 0b1#1 ++ 0b0000000000000111#16) = .ok (.set 7#16 true) ∧
    encode (.set 0#16 false) = 0x10000000#32 := by decide

theorem test_write_word :
    decode (0b0010#4 ++ 0b00000000000#11 ++ 0b1#1 ++ 0b0000000000000111#16) = .ok (.write 7#16 true) ∧
    encode (.write 15#16 true) = 0x2001000F#32 := by decide

theorem test_flush_word :
    decode (0b0011#4 ++ 0b00000000000#11 ++ 0b0#1 ++ 0b0000000000000000#16) = .ok .flush ∧
    encode .flush = 0x30000000#32 := by decide

theorem test_refresh_word :
    decode (0b0100#4 ++ 0b00000000000#11 ++ 0b0#1 ++ 0b0000000000000000#16) = .ok .refresh ∧
    encode .refresh = 0x40000000#32 := by decide

theorem test_readbit_word :
    decode (0b0101#4 ++ 0b00000000000#11 ++ 0b0#1 ++ 0b0000000000010000#16) = .ok (.readbit 16#16) ∧
    encode (.readbit 7#16) = 0x50000007#32 := by decide

/-- The illegal words of section 3. -/
theorem test_illegal_words :
    [0x10020000#32, 0x18000000#32, 0x30010000#32, 0x3000FFFF#32, 0x40000001#32, 0x50010000#32, 0x00000000#32,
      0x60000000#32, 0x70000000#32, 0xF0000000#32, 0xFFFFFFFF#32].map (fun w => (decode w).toOption) =
      List.replicate 11 none := by decide

theorem test_table_word : decodeTableWord 32 0x20010008 = some (.write 8#16 true) := by decide

/-! ### Assembler text (R73, R74) -/

theorem test_assemble_set :
    assembleText "SET 0xFFFF, 1" = some 0x1001FFFF#32 ∧ assembleText "READBIT 15" = some 0x5000000F#32 := by decide

theorem test_assemble_pseudo :
    assembleText "CLR 3" = some 0x10000003#32 ∧ assembleText "COMMIT" = some 0x30000000#32 ∧
    assembleText "SCAN" = some 0x40000000#32 ∧ assembleText "SETB 7" = some 0x10010007#32 := by decide

/-- Log 16, the model's choice: `v` is written as `idx` is, in decimal with or without leading zeros, or in `0x` hex. -/
theorem test_assemble_value_forms :
    assembleText "SET 3, 0x1" = some 0x10010003#32 ∧ assembleText "SET 3, 01" = some 0x10010003#32 ∧
    assembleText "SET 3, 0X1" = none := by decide

theorem test_assembler_refuses_wide_operands :
    assembleText "SET 65536, 1" = none ∧ assembleText "WRITE 0, 2" = none := by decide

/-! ### SET -/

/-- Section 4: index 65527 is the last valid one of the longest chain. -/
theorem test_set_last_index :
    seen (fun t => (t.buf, t.responses, t.trace)) (exec (.set 65527#16 true) (board 8191 .output .afterFall)) =
      some ([(8190, 0x80#8)], [0x0#32], []) := by decide

/-- O3: clearing the only set bit leaves the byte 00, which the list does not name. -/
theorem test_set_clears :
    seen (fun t => (t.buf, t.responses))
      (exec (.set 7#16 false) { board 1 .output .afterFall with buf := [(0, 0x80#8)] }) = some ([], [0x0#32]) := by
  decide

/-! ### WRITE -/

/-- E2, O4: the whole trace of a WRITE. -/
theorem test_write_trace :
    seen (fun t => (t.buf, t.trace, t.lvl)) (exec (.write 0#16 true) (board 1 .output .afterFall)) =
      some ([(0, 0x01#8)],
        [c0, d0, c1, c0, d0, c1, c0, d0, c1, c0, d0, c1, c0, d0, c1, c0, d0, c1, c0, d0, c1, c0, d1, c1, c0, l1, l0],
        ⟨true, false, false⟩) := by decide

/-- O9: two chips, byte 0 first. -/
theorem test_write_two_chips :
    seen (fun t => (t.buf, dataValues t.trace, t.trace.length))
      (exec (.write 15#16 true) { board 2 .output .afterFall with buf := [(1, 0x01#8)] }) =
      some ([(1, 0x81#8)],
        [false, false, false, false, false, false, false, false, true, false, false, false, false, false, false, true],
        51) := by decide

/-! ### FLUSH -/

/-- O5: the whole trace of a FLUSH. -/
theorem test_flush_trace :
    seen (fun t => t.trace) (exec .flush { board 1 .output .afterFall with buf := [(0, 0x81#8)] }) =
      some [c0, d1, c1, c0, d0, c1, c0, d0, c1, c0, d0, c1, c0, d0, c1, c0, d0, c1, c0, d0, c1, c0, d1, c1, c0, l1, l0] := by
  decide

/-- O7: in MODE = DUAL the flush first makes LATCH an output. -/
theorem test_flush_dual :
    seen (fun t => (t.dir.latch, t.trace.length, t.trace.head?))
      (exec .flush { board 1 .dual .afterFall with dir := ⟨.output, .output, .input⟩ }) =
      some (.output, 28, some (.dir .latch .output)) := by decide

/-! ### REFRESH -/

/-- Section 6: the traces of one refresh with each sample point. -/
theorem test_refresh_traces :
    seen (fun t => (t.buf, t.trace)) (exec .refresh { board 1 .input .afterFall with injected := inbits }) =
      some ([(0, 0xB2#8)],
        [c0, d1, d0, c1, c0, s1, c1, c0, s0, c1, c0, s1, c1, c0, s1, c1, c0, s0, c1, c0, s0, c1, c0, s1, c1, c0, s0,
          c1, c0]) ∧
    seen (fun t => (t.buf, t.trace)) (exec .refresh { board 1 .input .whileHigh with injected := inbits }) =
      some ([(0, 0xB2#8)],
        [c0, d1, d0, c1, s1, c0, c1, s0, c0, c1, s1, c0, c1, s1, c0, c1, s0, c0, c1, s0, c0, c1, s1, c0, c1, s0, c0,
          c1, c0]) ∧
    seen (fun t => (t.buf, t.trace)) (exec .refresh { board 1 .input .beforeRise with injected := inbits }) =
      some ([(0, 0xB2#8)],
        [c0, d1, d0, s1, c1, c0, s0, c1, c0, s1, c1, c0, s1, c1, c0, s0, c1, c0, s0, c1, c0, s1, c1, c0, s0, c1, c0,
          c1, c0]) := by decide

/-- I2: in MODE = DUAL the refresh first makes LATCH an input, and the counter stays. -/
theorem test_refresh_dual :
    seen (fun t => (t.buf, t.dir.latch, t.trace.length, t.cnt))
      (exec .refresh
        { board 1 .dual .afterFall with injected := [false, false, false, false, true, true, true, true] }) =
      some ([(0, 0x0F#8)], .input, 30, 0#16) := by decide

/-! ### READBIT -/

/-- I8: two chips, the counter run down. -/
theorem test_readbit_refreshes :
    seen (fun t => (t.buf, t.cnt, t.responses, t.trace.length))
      (exec (.readbit 9#16)
        { board 2 .input .afterFall with
          injected := [true, true, false, false, false, false, false, true,
            false, true, true, true, true, true, true, false] }) =
      some ([(0, 0xC1#8), (1, 0x7E#8)], 15#16, [0x100#32], 53) := by decide

/-- I4: no refresh while the counter runs. -/
theorem test_readbit_counts_down :
    seen (fun t => (t.buf, t.cnt, t.responses, t.trace))
      (exec (.readbit 0#16) { board 1 .input .afterFall with buf := [(0, 0xB2#8)], cnt := 7#16 }) =
      some ([(0, 0xB2#8)], 6#16, [0x0#32], []) := by decide

/-! ### Errors, steps and reset -/

/-- Section 4: MODE before RANGE, ILLEGAL before MODE, and RANGE at 8N. -/
theorem test_error_precedence :
    seen (fun t => t.responses) (runWord 0x1001FFFF#32 (board 1 .input .afterFall)) = some [0x2#32] ∧
    seen (fun t => t.responses) (runWord 0x3000FFFF#32 (board 1 .input .afterFall)) = some [0x3#32] ∧
    seen (fun t => t.responses) (runWord 0x50000008#32 (board 1 .output .afterFall)) = some [0x2#32] ∧
    seen (fun t => t.responses) (runWord 0x1001FFF8#32 (board 8191 .output .afterFall)) = some [0x1#32] := by decide

theorem test_step_runs_the_word :
    seen (fun t => (t.buf, t.moves)) (step (State.reset.withFetchWord 32 0x10010007)) = some ([(0, 0x80#8)], []) := by
  decide

/-- R152, by hand: a reset after three events of a FLUSH leaves those events and no response. -/
theorem test_reset_cuts_a_flush :
    seen (fun t => (t.earlier, t.buf))
      (step { board 1 .output .afterFall with
        buf := [(0, 0x81#8)], moves := [.resetDuring 0x30000000#32 3 ⟨2, .input, .afterFall⟩] }) =
      some ([⟨⟨1, .output, .afterFall⟩, [], [c0, d1, c1]⟩], []) := by decide

/-- Section 5: a rising LATCH loads the outputs, bit 0 of the last byte at the chip DATA feeds. -/
theorem test_chain_shows_the_byte :
    (Chain.run (board 1 .output .afterFall).lines ⟨List.replicate 8 true, List.replicate 8 true⟩
      (flushEvents ⟨1, .output, .afterFall⟩ [(0, 0x81#8)])).out =
      [true, false, false, false, false, false, false, true] := by decide

/-! ### Witnesses: for each obligation with hypotheses, values that meet them, clause by clause -/

/-- A one-chip controller in MODE = DUAL whose last command was a refresh, so that LATCH is IN. -/
def scanned : State :=
  { board 1 .dual .afterFall with
    cnt := 7#16
    dir := ⟨.output, .output, .input⟩
    trace := [.dir .latch .input, c0] }

theorem index_fits {i : Instr} {idx : Index} {n : Nat} (h : Instr.index? i = some idx) (hr : idx.toNat < 8 * n) :
    Instr.indexFits i n := fun j hj => by
  obtain rfl : idx = j := Option.some.inj (h.symm.trans hj)
  exact hr

theorem board_inv : (board 1 .output .afterFall).Inv :=
  ⟨by decide, by decide, by decide, rfl, rfl, by decide, rfl, rfl, rfl, (fun h => nomatch h), fun _ => rfl⟩

theorem longest_board_inv : (board 8191 .dual .afterFall).Inv :=
  ⟨by decide, by decide, by decide, rfl, rfl, by decide, rfl, rfl, trivial,
    fun _ => ⟨fun h => (nomatch h), fun h => (nomatch h)⟩, fun h => nomatch h⟩

theorem scanned_inv : scanned.Inv :=
  ⟨by decide, by decide, by decide, rfl, rfl, by decide, rfl, rfl, trivial,
    fun _ => ⟨fun _ => rfl, fun _ => rfl⟩, fun h => nomatch h⟩

theorem scanned_trace_inv : scanned.TraceInv := ⟨by decide, by decide, by decide⟩

theorem witness_EncodeInvertsDecode : decode 0x1001FFFF#32 = .ok (.set 0xFFFF#16 true) := by decide

theorem witness_IllegalWordsAreExactlyThese :
    decode 0x60000000#32 = .error .reservedOpcode ∧ decode 0x18000000#32 = .error .reservedBits ∧
    decode 0x50010000#32 = .error .unusedValue ∧ decode 0x40000001#32 = .error .unusedIndex := by decide

theorem witness_DecodeFollowsTheOpcodeMap :
    (opcodeMap.countP fun r => 0x2001FFFF#32 &&& r.mask == r.pattern) = 1 ∧
    (opcodeMap.countP fun r => 0x20020000#32 &&& r.mask == r.pattern) = 0 := by decide

theorem witness_AssemblerWords :
    AsmLine.assemble (.write 65535 1) = some 0x2001FFFF#32 ∧ AsmLine.assemble (.write 65536 1) = none ∧
    AsmLine.assemble (.set 0 2) = none ∧ AsmLine.assemble (.readbit 65535) = some 0x5000FFFF#32 ∧
    AsmLine.assemble (.readbit 65536) = none := by decide

theorem witness_PseudoInstructionsExpand :
    AsmLine.assemble (.clr 3) = some 0x10000003#32 ∧ AsmLine.assemble .scan = some 0x40000000#32 := by decide

theorem witness_EveryCommandAnswersOnce :
    decode 0x50000007#32 = .ok (.readbit 7#16) ∧
    seen (fun t => t.responses) (runWord 0x50000007#32 { board 1 .input .afterFall with cnt := 1#16 }) =
      some [responseWord .ok false] ∧
    decode 0x30000000#32 = .ok .flush ∧ Status.errRange ≠ .ok := by decide

theorem witness_IllegalWordAnswersErrIllegal :
    State.straps { board 1 .input .afterFall with moves := [.command 0#32] } = ⟨1, .input, .afterFall⟩ ∧
    Straps.legal ⟨1, .input, .afterFall⟩ = true ∧
    State.moves { board 1 .input .afterFall with moves := [.command 0#32] } = [.command 0#32] ∧
    decode 0#32 = .error .reservedOpcode := by decide

theorem witness_ModeTableDecides :
    modeTable .flush (board 1 .input .afterFall).straps.mode = false ∧
    modeTable (.readbit 0#16) (board 1 .output .afterFall).straps.mode = false ∧
    modeTable .flush (board 1 .dual .afterFall).straps.mode = true ∧
    modeTable (.readbit 0#16) (board 1 .dual .afterFall).straps.mode = true := by decide

theorem witness_OutOfRangeIsRejected :
    Instr.index? (.write 8#16 true) = some 8#16 ∧ modeTable (.write 8#16 true) .output = true ∧
    8 * (board 1 .output .afterFall).straps.chainLength ≤ (8#16).toNat ∧
    Instr.indexFits (.write 7#16 true) (board 1 .output .afterFall).straps.chainLength ∧
    Instr.indexFits .flush (board 1 .output .afterFall).straps.chainLength :=
  ⟨by decide, by decide, by decide, index_fits rfl (by decide), fun _ h => nomatch h⟩

theorem witness_ErrorPrecedence :
    decode 0x3000FFFF#32 = .error .unusedIndex ∧
    decode 0x10010008#32 = .ok (.set 8#16 true) ∧ modeTable (.set 8#16 true) .input = false ∧
    modeTable (.set 8#16 true) .dual = true ∧ ¬ Instr.indexFits (.set 8#16 true) 1 ∧
    Instr.indexFits (.set 7#16 true) 1 :=
  ⟨by decide, by decide, by decide, by decide, fun h => absurd (h 8#16 rfl) (by decide), index_fits rfl (by decide)⟩

theorem witness_ErrorsArePrecise :
    seen (fun t => t.responses) (runWord 0x30000000#32 (board 1 .input .afterFall)) = some [responseWord .errMode false] ∧
    seen (fun t => t.responses) (runWord 0x30000000#32 (board 1 .output .afterFall)) = some [responseWord .ok false] := by
  decide

theorem witness_StepRunsTheDecodedCommand :
    (State.reset.withFetchWord 32 0x50000007).straps.legal = true ∧
    (State.reset.withFetchWord 32 0x50000007).moves = [.command 0x50000007#32] ∧
    decode 0x50000007#32 = .ok (.readbit 7#16) := by decide

theorem witness_StepWithoutMoveIsIdle : State.reset.straps.legal = true ∧ State.reset.moves = [] := by decide

theorem witness_ResetSetsEveryValue :
    scanned.straps.legal = true ∧
    State.moves { scanned with moves := [.reset ⟨8191, .input, .whileHigh⟩] } = [.reset ⟨8191, .input, .whileHigh⟩] ∧
    Straps.legal ⟨8191, .input, .whileHigh⟩ = true := by decide

theorem witness_ResetDuringCommandLeavesAPrefix :
    scanned.straps.legal = true ∧ Straps.legal ⟨1, .output, .afterFall⟩ = true ∧
    State.moves { scanned with moves := [.resetDuring 0x30000000#32 28 ⟨1, .output, .afterFall⟩] } =
      [.resetDuring 0x30000000#32 28 ⟨1, .output, .afterFall⟩] ∧
    [] <+: flushEvents scanned.straps scanned.buf := by decide

theorem witness_IllegalStrapsHaveNoRun :
    (board 8192 .dual .afterFall).straps.legal = false ∧ scanned.straps.legal = true ∧
    Straps.legal ⟨0, .dual, .afterFall⟩ = false ∧
    State.moves { scanned with moves := [.reset ⟨0, .dual, .afterFall⟩] } = [.reset ⟨0, .dual, .afterFall⟩] ∧
    State.moves { scanned with moves := [.resetDuring 0#32 0 ⟨0, .dual, .afterFall⟩] } =
      [.resetDuring 0#32 0 ⟨0, .dual, .afterFall⟩] := by decide

/-- The clauses of the statements about SET and WRITE: the wrong mode, the first index out of range, the last in range. -/
theorem witness_SetStagesOneBit :
    (board 1 .input .afterFall).straps.mode = .input ∧
    (board 1 .output .afterFall).straps.mode ≠ .input ∧
    8 * (board 1 .output .afterFall).straps.chainLength ≤ (8#16).toNat ∧
    (7#16).toNat < 8 * (board 1 .output .afterFall).straps.chainLength ∧ (board 1 .output .afterFall).buf.wf := by decide

theorem witness_WriteStagesThenFlushes :
    (board 8191 .input .afterFall).straps.mode = .input ∧
    (board 8191 .dual .afterFall).straps.mode ≠ .input ∧
    8 * (board 8191 .dual .afterFall).straps.chainLength ≤ (65528#16).toNat ∧
    (65527#16).toNat < 8 * (board 8191 .dual .afterFall).straps.chainLength ∧ (board 8191 .dual .afterFall).buf.wf := by
  decide

theorem witness_FlushSendsTheBuffer :
    (board 1 .input .afterFall).straps.mode = .input ∧ scanned.straps.mode ≠ .input ∧
    1 ≤ scanned.straps.chainLength ∧ scanned.Inv ∧
    seen (fun t => t.dir.latch) (exec .flush scanned) = some .output :=
  ⟨rfl, by decide, by decide, scanned_inv, by decide⟩

theorem witness_RefreshCapturesTheInput :
    (board 1 .output .afterFall).straps.mode = .output ∧ (board 1 .dual .afterFall).straps.mode ≠ .output ∧
    scanned.buf.wf ∧ scanned.straps.mode ≠ .output ∧ scanned.Inv ∧ 7 < 8 * scanned.straps.chainLength ∧
    seen (fun t => t.dir.latch) (exec .refresh scanned) = some .input :=
  ⟨rfl, by decide, by decide, by decide, scanned_inv, by decide, rfl⟩

theorem witness_ReadbitFollowsTheCounter :
    (board 1 .output .afterFall).straps.mode = .output ∧
    scanned.straps.mode ≠ .output ∧ 8 * scanned.straps.chainLength ≤ (8#16).toNat ∧
    (7#16).toNat < 8 * scanned.straps.chainLength ∧ scanned.cnt ≠ 0#16 ∧
    (board 1 .dual .afterFall).straps.mode ≠ .output ∧ (board 1 .dual .afterFall).straps.legal = true ∧
    (7#16).toNat < 8 * (board 1 .dual .afterFall).straps.chainLength ∧
    (board 1 .dual .afterFall).cnt = 0#16 ∧ (board 1 .dual .afterFall).buf.wf := by decide

theorem witness_CounterNeverWraps :
    scanned.straps.legal = true ∧ scanned.cnt.toNat < 8 * scanned.straps.chainLength ∧
    scanned.straps.mode ≠ .output ∧ (0#16).toNat < 8 * scanned.straps.chainLength ∧ scanned.cnt ≠ 0#16 ∧
    (board 8191 .input .afterFall).straps.legal = true ∧ (board 8191 .input .afterFall).straps.mode ≠ .output ∧
    (65527#16).toNat < 8 * (board 8191 .input .afterFall).straps.chainLength ∧
    (board 8191 .input .afterFall).cnt = 0#16 := by decide

theorem witness_FlushSerialOrder : (board 2 .output .afterFall).straps.mode ≠ .input := by decide

theorem witness_RefreshSerialOrder :
    (board 2 .input .afterFall).straps.mode ≠ .output ∧ (board 2 .input .afterFall).buf.wf ∧
    15 < 8 * (board 2 .input .afterFall).straps.chainLength := by decide

theorem witness_FlushRoundTrip : scanned.straps.mode ≠ .input ∧ 0 < scanned.straps.chainLength := by decide

theorem witness_RefreshRoundTrip :
    scanned.straps.mode ≠ .output ∧ scanned.buf.wf ∧ 0 < scanned.straps.chainLength := by decide

theorem witness_PulsesPerCommand :
    (board 1 .output .afterFall).straps.mode ≠ .input ∧ (board 1 .input .afterFall).straps.mode ≠ .output := by decide

theorem witness_EventCountTable :
    seen (fun t => t.responses) (exec .refresh (board 1 .output .afterFall)) = some [responseWord .errMode false] ∧
    seen (fun t => t.responses) (exec .flush (board 1 .dual .afterFall)) = some [responseWord .ok false] := by decide

theorem witness_WriteIsSetThenFlush :
    scanned.straps.mode ≠ .input ∧ (7#16).toNat < 8 * scanned.straps.chainLength := by decide

theorem witness_SetsStayOffTheBus :
    scanned.straps.mode ≠ .input ∧ (∀ i ∈ [Instr.set 7#16 true, .set 8#16 false], ∃ idx v, i = .set idx v) ∧
    (7#16).toNat < 8 * scanned.straps.chainLength :=
  ⟨by decide, by simp, by decide⟩

theorem witness_SetOrderDoesNotMatter :
    scanned.buf.wf ∧ [Instr.set 7#16 true, .set 0#16 false].Perm [.set 0#16 false, .set 7#16 true] ∧
    (∀ i ∈ [Instr.set 7#16 true, .set 0#16 false],
      ∃ idx v, i = .set idx v ∧ idx.toNat < 8 * scanned.straps.chainLength) ∧
    ([Instr.set 7#16 true, .set 0#16 false].map Instr.index?).Nodup :=
  ⟨by decide, by decide, by simp [scanned, board, State.afterReset], by decide⟩

theorem witness_LastSetWins :
    scanned.buf.wf ∧ scanned.straps.mode ≠ .input ∧ (7#16).toNat < 8 * scanned.straps.chainLength := by decide

theorem witness_StagedBitIsRead :
    scanned.buf.wf ∧ scanned.straps.mode = .dual ∧ scanned.cnt ≠ 0#16 ∧
    (7#16).toNat < 8 * scanned.straps.chainLength := by decide

theorem witness_RefreshOverwritesStagedBits :
    (board 8191 .dual .afterFall).Inv ∧ (board 8191 .dual .afterFall).straps.mode = .dual ∧
    (∀ i ∈ [Instr.set 65527#16 true], ∃ idx v, i = .set idx v) :=
  ⟨longest_board_inv, rfl, by simp⟩

/-- From `cnt = 7` with N = 1 the first READBIT emits nothing, the eighth refreshes, and so does the sixteenth (m = 1). -/
theorem witness_RefreshCadence :
    scanned.straps.legal = true ∧ scanned.straps.mode ≠ .output ∧
    scanned.cnt.toNat < 8 * scanned.straps.chainLength ∧
    (∀ i ∈ List.replicate 7 (Instr.readbit 7#16), Instr.isRead i = true →
      Instr.indexFits i scanned.straps.chainLength) ∧
    (7#16).toNat < 8 * scanned.straps.chainLength ∧
    (List.replicate 7 (Instr.readbit 7#16)).countP Instr.isRead + 1 = scanned.cnt.toNat + 1 ∧
    (∀ i ∈ List.replicate 15 (Instr.readbit 7#16), Instr.isRead i = true →
      Instr.indexFits i scanned.straps.chainLength) ∧
    (List.replicate 15 (Instr.readbit 7#16)).countP Instr.isRead + 1 =
      scanned.cnt.toNat + 1 + 8 * scanned.straps.chainLength * 1 ∧
    ([] : List Instr).countP Instr.isRead + 1 ≠ scanned.cnt.toNat + 1 :=
  ⟨by decide, by decide, by decide, fun _ hi _ => (List.eq_of_mem_replicate hi) ▸ index_fits rfl (by decide),
    by decide, by decide, fun _ hi _ => (List.eq_of_mem_replicate hi) ▸ index_fits rfl (by decide), by decide,
    by decide⟩

theorem witness_OnlyReadbitChangesTheCounter :
    Instr.isRead .refresh = false ∧ (board 1 .output .afterFall).straps.mode = .output := by decide

theorem witness_CommandsKeepStrapsAndDirections :
    (board 1 .input .afterFall).straps.mode ≠ .dual ∧ scanned.straps.mode = .dual ∧
    seen (fun t => t.responses) (exec (.set 8#16 true) scanned) = some [responseWord .errRange false] ∧
    seen (fun t => t.responses) (exec (.write 7#16 true) scanned) = some [responseWord .ok false] := by decide

theorem witness_OnlyRefreshesReadTheOracle :
    Instr.readbit 7#16 ≠ .refresh ∧ Instr.isRead (.readbit 7#16) = true ∧ scanned.cnt ≠ 0#16 := by decide

theorem witness_StepKeepsInvariant :
    scanned.Inv ∧ (seen State.straps (step (scanned.withFetchWord 32 0x30000000))).isSome = true :=
  ⟨scanned_inv, by decide⟩

theorem witness_ResetMeetsInvariants :
    Straps.legal ⟨1, .output, .beforeRise⟩ = true ∧ Straps.legal ⟨8191, .input, .whileHigh⟩ = true := by decide

theorem witness_StepKeepsTraceInvariant :
    scanned.Inv ∧ scanned.TraceInv ∧ (seen State.straps (step (scanned.withFetchWord 32 0x20010007))).isSome = true :=
  ⟨scanned_inv, scanned_trace_inv, by decide⟩

theorem witness_FlushShowsOnTheChain :
    (board 1 .output .afterFall).Inv ∧ (board 1 .output .afterFall).straps.mode ≠ .input ∧
    (7#16).toNat < 8 * (board 1 .output .afterFall).straps.chainLength ∧
    (List.replicate 8 true).length = 8 * (board 1 .output .afterFall).straps.chainLength :=
  ⟨board_inv, by decide, by decide, by decide⟩

end Sys2Proof.Tests
end

section
/-! SUPPORT. Straps outside the legal ranges, and the counter's range (spec/70_reset_and_hazards.md R153;
spec/41_input_path.md R105). -/

namespace Sys2Proof.Machine

/-- R153: a step with illegal straps is refused. -/
theorem step_of_illegal {s : State} (h : s.straps.legal = false) : step s = .refused .illegalConfiguration := by
  simp [step, h]

/-- A step with legal straps is the host's next move. -/
theorem step_of_legal {s : State} (h : s.straps.legal = true) : step s = nextMove s := by
  simp [step, h]

/-- R153: no reset takes illegal straps. -/
theorem resetWith_of_illegal {c : Straps} (h : c.legal = false) (s : State) :
    resetWith c s = .refused .illegalConfiguration := by
  simp [resetWith, h]

/-- Nor does a reset that cuts a command, whatever the command word: the word itself is never refused. -/
theorem resetDuring_of_illegal {c : Straps} (h : c.legal = false) (w : Word) (k : Nat) (s : State) :
    resetDuring w k c s = .refused .illegalConfiguration := by
  obtain ⟨done, hd⟩ := runWord_next w s
  simp [resetDuring, hd, resetWith_of_illegal h]

/-- Settles O18, from the one check of the straps in `step` and the one in `resetWith`. -/
theorem illegalStrapsHaveNoRun : Obligations.IllegalStrapsHaveNoRun := by
  refine ⟨fun c => Straps.legal_iff, fun s => step_of_illegal, ?_, ?_⟩
  · intro s c rest hs hc hm
    rw [step_of_legal hs, nextMove, hm]
    exact resetWith_of_illegal hc _
  · intro s w k c rest hs hc hm
    rw [step_of_legal hs, nextMove, hm]
    exact resetDuring_of_illegal hc w k _

/-- R105: a READBIT that finds the counter run down restarts it at 8N - 1. -/
theorem State.countRead_cnt_of_zero {s : State} (hl : s.straps.legal = true) (h : s.cnt = 0#16) :
    s.countRead.cnt.toNat = 8 * s.straps.chainLength - 1 := by
  obtain ⟨h1, h2⟩ := Straps.legal_iff.1 hl
  rw [State.countRead_of_zero h]
  exact restart_toNat h1 h2

/-- R105: a READBIT that finds the counter at 1 or more decrements it. -/
theorem State.countRead_cnt_of_ne {s : State} (h : s.cnt ≠ 0#16) : s.countRead.cnt.toNat = s.cnt.toNat - 1 := by
  rw [State.countRead_of_ne h]
  exact (toNat_sub_one h).2

/-- Settles O24, by whether the counter has run down. -/
theorem counterNeverWraps : Obligations.CounterNeverWraps := by
  intro s idx hl hc hm hr
  have hN := (Straps.legal_iff.1 hl).2
  refine ⟨_, exec_readbit_ok hm hr, by omega, State.countRead_cnt_of_zero hl,
    fun h => ⟨(toNat_sub_one h).1, State.countRead_cnt_of_ne h⟩, ?_⟩
  rw [State.answer_cnt]
  by_cases h : s.cnt = 0#16
  · exact (State.countRead_cnt_of_zero hl h).le
  · rw [State.countRead_cnt_of_ne h]
    omega

end Sys2Proof.Machine
end

section
/-! SUPPORT. What the sample point changes (spec/00_scope.md R10): of two runs of a command that differ in it, the second
ends in the state of the first but for the trace, whose samples stand elsewhere among the same events. -/

namespace Sys2Proof.Machine

/-- The controller with another sample point. -/
def State.withSamplePoint (sp : SamplePoint) (s : State) : State :=
  { s with straps := { s.straps with samplePoint := sp } }

/-- Lists of events that differ only in where the samples stand. -/
structure SameButSamplePlaces (es fs : List Event) : Prop where
  length : fs.length = es.length
  sampled : sampledValues fs = sampledValues es
  others : fs.filter (fun e => !(Event.isSample e)) = es.filter (fun e => !(Event.isSample e))

theorem SameButSamplePlaces.refl (es : List Event) : SameButSamplePlaces es es := ⟨rfl, rfl, rfl⟩

theorem SameButSamplePlaces.append {es fs es' fs' : List Event} (h : SameButSamplePlaces es fs)
    (h' : SameButSamplePlaces es' fs') : SameButSamplePlaces (es ++ es') (fs ++ fs') where
  length := by rw [List.length_append, List.length_append, h.length, h'.length]
  sampled := by rw [sampledValues_append, sampledValues_append, h.sampled, h'.sampled]
  others := by rw [List.filter_append, List.filter_append, h.others, h'.others]

theorem SameButSamplePlaces.flatMap {es fs : Nat → List Event} (h : ∀ t, SameButSamplePlaces (es t) (fs t))
    (l : List Nat) : SameButSamplePlaces (l.flatMap es) (l.flatMap fs) := by
  induction l with
  | nil => exact .refl []
  | cons t l ih => exact (h t).append ih

/-- R102: in one bit period the sample point says only where the sample stands. -/
theorem scanPeriod_sameButSamplePlaces (sp sp' : SamplePoint) (b : Bit) :
    SameButSamplePlaces (scanPeriod sp b) (scanPeriod sp' b) := by
  cases sp <;> cases sp' <;> exact ⟨rfl, rfl, rfl⟩

/-- R103: so too in a whole refresh. -/
theorem refreshEvents_sameButSamplePlaces (c : Straps) (sp : SamplePoint) (inbits : Nat → Bit) :
    SameButSamplePlaces (refreshEvents c inbits) (refreshEvents { c with samplePoint := sp } inbits) :=
  ((SameButSamplePlaces.refl _).append
    (.flatMap (fun t => scanPeriod_sameButSamplePlaces c.samplePoint sp (inbits t)) _)).append (.refl _)

/-- From `s` one run ended in `t`, and the run with the sample point `sp` in `u`: the same state but for the sample point
and the places of the samples among the new events. -/
def MovesOnlySamples (sp : SamplePoint) (s t u : State) : Prop :=
  ∃ es fs, t.trace = s.trace ++ es ∧
    u = { t with straps := { s.straps with samplePoint := sp }, trace := s.trace ++ fs } ∧
    SameButSamplePlaces es fs

/-- Two runs that append the same events. -/
theorem MovesOnlySamples.of_trace {s t : State} {es : List Event} (hs : t.straps = s.straps)
    (h : t.trace = s.trace ++ es) (sp : SamplePoint) : MovesOnlySamples sp s t (t.withSamplePoint sp) :=
  ⟨es, es, h, by rw [← h, ← hs]; rfl, .refl es⟩

/-- Two runs that append no events. -/
theorem MovesOnlySamples.of_trace_eq {s t : State} (hs : t.straps = s.straps) (h : t.trace = s.trace)
    (sp : SamplePoint) : MovesOnlySamples sp s t (t.withSamplePoint sp) :=
  .of_trace (es := []) hs (by simpa using h) sp

theorem MovesOnlySamples.buf_eq {sp : SamplePoint} {s t u : State} (h : MovesOnlySamples sp s t u) : u.buf = t.buf := by
  obtain ⟨es, fs, -, rfl, -⟩ := h
  rfl

/-- The response does not depend on the sample point. -/
theorem MovesOnlySamples.answer {sp : SamplePoint} {s t u : State} (h : MovesOnlySamples sp s t u) (st : Status)
    (b : Bit) : MovesOnlySamples sp s (t.answer st b) (u.answer st b) := by
  obtain ⟨es, fs, ht, rfl, hs⟩ := h
  exact ⟨es, fs, ht, rfl, hs⟩

/-- Nor does the value the counter restarts at. -/
theorem MovesOnlySamples.setCnt {sp : SamplePoint} {s t u : State} (h : MovesOnlySamples sp s t u) (c : BitVec 16) :
    MovesOnlySamples sp s { t with cnt := c } { u with cnt := c } := by
  obtain ⟨es, fs, ht, rfl, hs⟩ := h
  exact ⟨es, fs, ht, rfl, hs⟩

/-- A flush takes no sample: the sample point changes nothing in it (R84). -/
theorem State.flush_movesOnlySamples (sp : SamplePoint) (s : State) :
    MovesOnlySamples sp s s.flush (s.withSamplePoint sp).flush := by
  have hflush : (s.withSamplePoint sp).flush = s.flush.withSamplePoint sp := by
    rw [State.flush_eq, State.flush_eq]
    rfl
  have hstraps : s.flush.straps = s.straps := by rw [State.flush_eq]
  have htrace : s.flush.trace = s.trace ++ flushEvents s.straps s.buf := by rw [State.flush_eq]
  rw [hflush]
  exact .of_trace hstraps htrace sp

/-- A refresh with another sample point moves only its samples (R100, R103). -/
theorem State.refresh_movesOnlySamples (sp : SamplePoint) (s : State) :
    MovesOnlySamples sp s s.refresh (s.withSamplePoint sp).refresh := by
  refine ⟨_, _, by rw [State.refresh_eq], ?_, refreshEvents_sameButSamplePlaces s.straps sp s.inbit⟩
  rw [State.refresh_eq, State.refresh_eq]
  rfl

/-- The counter policy reads the sample point only in its refresh (R106). -/
theorem State.countRead_movesOnlySamples (sp : SamplePoint) (s : State) :
    MovesOnlySamples sp s s.countRead (s.withSamplePoint sp).countRead := by
  by_cases h : s.cnt = 0#16
  · rw [State.countRead_of_zero h, State.countRead_of_zero (s := s.withSamplePoint sp) h]
    exact (s.refresh_movesOnlySamples sp).setCnt _
  · rw [State.countRead_of_ne h, State.countRead_of_ne (s := s.withSamplePoint sp) h]
    exact .of_trace_eq rfl rfl sp

/-- From `s` one run had the outcome `o`, and the run with the sample point `sp` the outcome `o'`: both end, and in states
that differ in nothing but the sample point and the places of the samples. -/
def OutcomesMoveOnlySamples (sp : SamplePoint) (s : State) (o o' : Host.Outcome State Fault Refusal) : Prop :=
  ∃ t u, o = .next t ∧ o' = .next u ∧ MovesOnlySamples sp s t u

/-- A command that ends in its response. -/
theorem MovesOnlySamples.next_answer {sp : SamplePoint} {s t u : State} (h : MovesOnlySamples sp s t u) (st : Status)
    (b : Bit) : OutcomesMoveOnlySamples sp s (.next (t.answer st b)) (.next (u.answer st b)) :=
  ⟨_, _, rfl, rfl, h.answer st b⟩

/-- A check that both runs make: where it fails both answer the same error. -/
theorem OutcomesMoveOnlySamples.check {sp : SamplePoint} {s : State} {o o' : Host.Outcome State Fault Refusal}
    {p : Prop} [Decidable p] {st : Status} (h : OutcomesMoveOnlySamples sp s o o') :
    OutcomesMoveOnlySamples sp s (if p then .next (s.answer st false) else o)
      (if p then .next ((s.withSamplePoint sp).answer st false) else o') := by
  split
  · exact (MovesOnlySamples.of_trace_eq rfl rfl sp).next_answer st false
  · exact h

/-- Every command makes the same checks for every sample point, and its effect moves only the samples. -/
theorem exec_movesOnlySamples (sp : SamplePoint) (i : Instr) (s : State) :
    OutcomesMoveOnlySamples sp s (exec i s) (exec i (s.withSamplePoint sp)) := by
  cases i with
  | set idx v =>
    simp only [exec, execSet_eq]
    have heffect : MovesOnlySamples sp s (s.setIndexBit idx.toNat v) _ := .of_trace_eq rfl rfl sp
    exact .check (.check (heffect.next_answer _ _))
  | write idx v =>
    simp only [exec, execWrite_eq]
    -- Staging the bit appends no event, so the flush starts from the trace of `s`.
    have heffect : MovesOnlySamples sp s (s.setIndexBit idx.toNat v).flush _ :=
      (s.setIndexBit idx.toNat v).flush_movesOnlySamples sp
    exact .check (.check (heffect.next_answer _ _))
  | flush =>
    simp only [exec, execFlush_eq]
    exact .check ((s.flush_movesOnlySamples sp).next_answer _ _)
  | refresh =>
    simp only [exec, execRefresh_eq]
    exact .check ((s.refresh_movesOnlySamples sp).next_answer _ _)
  | readbit idx =>
    simp only [exec, execReadbit_eq]
    have heffect := s.countRead_movesOnlySamples sp
    have hbit : (s.withSamplePoint sp).countRead.indexBit idx.toNat = s.countRead.indexBit idx.toNat := by
      rw [State.indexBit, State.indexBit, heffect.buf_eq]
    rw [hbit]
    exact .check (.check (heffect.next_answer _ _))

/-- Settles O40, command by command: only a refresh takes samples, and its bit periods differ only in where the sample
stands. -/
theorem samplePointMovesOnlyTheSample : Obligations.SamplePointMovesOnlyTheSample := by
  intro i s sp
  obtain ⟨t, _, ht, hu, es, fs, htrace, rfl, hsame⟩ := exec_movesOnlySamples sp i s
  exact ⟨t, es, fs, ht, htrace, hu, hsame.length, hsame.sampled, hsame.others⟩

end Sys2Proof.Machine
end

section
/-! SUPPORT. A command taken apart: the status its checks give, the effect it has where they pass, the bit it returns and
the events it appends; and the directions of the lines (spec/10_state.md R26 to R28). -/

namespace Sys2Proof.Machine

/-- The status that the checks of a command give (R122 to R124). They read its operands and the straps alone. -/
def commandStatus (i : Instr) (c : Straps) : Status :=
  if modeTable i c.mode = false then .errMode
  else if (Instr.index? i).any (8 * c.chainLength ≤ ·.toNat) then .errRange
  else .ok

/-- What a command does before its response, where its checks pass (R80 to R82, R101, R106). -/
def commandEffect : Instr → State → State
  | .set idx v, s => s.setIndexBit idx.toNat v
  | .write idx v, s => (s.setIndexBit idx.toNat v).flush
  | .flush, s => s.flush
  | .refresh, s => s.refresh
  | .readbit _, s => s.countRead

/-- The bit that the response of a command returns, `t` being the state after its effect (R70). -/
def commandRdata : Instr → State → Bit
  | .set _ _, _ => false
  | .write _ _, _ => false
  | .flush, _ => false
  | .refresh, _ => false
  | .readbit idx, t => t.indexBit idx.toNat

/-- The events of a command's effect (R85, R103). -/
def commandEvents : Instr → State → List Event
  | .set _ _, _ => []
  | .write idx v, s => flushEvents s.straps (s.setIndexBit idx.toNat v).buf
  | .flush, s => flushEvents s.straps s.buf
  | .refresh, s => refreshEvents s.straps s.inbit
  | .readbit _, s => if s.cnt = 0#16 then refreshEvents s.straps s.inbit else []

/-- R122: SET is a command of the output path. -/
@[simp] theorem modeTable_set (idx : Index) (v : Bit) (m : Mode) : modeTable (.set idx v) m = acceptsOutput m := by
  cases m <;> rfl

/-- R122: so is WRITE. -/
@[simp] theorem modeTable_write (idx : Index) (v : Bit) (m : Mode) : modeTable (.write idx v) m = acceptsOutput m := by
  cases m <;> rfl

/-- R122: so is FLUSH. -/
@[simp] theorem modeTable_flush (m : Mode) : modeTable .flush m = acceptsOutput m := by cases m <;> rfl

/-- R122: REFRESH is a command of the input path. -/
@[simp] theorem modeTable_refresh (m : Mode) : modeTable .refresh m = acceptsInput m := by cases m <;> rfl

/-- R122: so is READBIT. -/
@[simp] theorem modeTable_readbit (idx : Index) (m : Mode) : modeTable (.readbit idx) m = acceptsInput m := by
  cases m <;> rfl

/-- Whether no check of a command fails. -/
theorem commandStatus_ok_iff (i : Instr) (c : Straps) :
    commandStatus i c = .ok ↔ modeTable i c.mode = true ∧ Instr.indexFits i c.chainLength := by
  unfold commandStatus Instr.indexFits
  cases hm : modeTable i c.mode <;> cases Instr.index? i <;> simp

/-- The modes and the indices in which each effect takes place. -/
theorem accepted_of_status_ok {i : Instr} {c : Straps} (h : commandStatus i c = .ok) :
    match i with
    | .set idx _ => c.mode ≠ .input ∧ idx.toNat < 8 * c.chainLength
    | .write idx _ => c.mode ≠ .input ∧ idx.toNat < 8 * c.chainLength
    | .flush => c.mode ≠ .input
    | .refresh => c.mode ≠ .output
    | .readbit idx => c.mode ≠ .output ∧ idx.toNat < 8 * c.chainLength := by
  rw [commandStatus_ok_iff] at h
  cases i <;> simpa [acceptsOutput_iff, acceptsInput_iff, Instr.indexFits, Instr.index?] using h

/-- Where its checks pass, a command has its effect and answers OK. -/
theorem exec_of_ok {i : Instr} {s : State} (h : commandStatus i s.straps = .ok) :
    exec i s = .next ((commandEffect i s).answer .ok (commandRdata i (commandEffect i s))) := by
  have haccepted := accepted_of_status_ok h
  cases i with
  | set idx v => exact exec_set_ok v haccepted.1 haccepted.2
  | write idx v => exact exec_write_ok v haccepted.1 haccepted.2
  | flush => exact exec_flush_ok haccepted
  | refresh => exact exec_refresh_ok haccepted
  | readbit idx => exact exec_readbit_ok haccepted.1 haccepted.2

/-- Where a check fails, a command answers the status of the check and does nothing else (R125). -/
theorem exec_of_error {i : Instr} {s : State} (h : commandStatus i s.straps ≠ .ok) :
    exec i s = .next (s.answer (commandStatus i s.straps) false) := by
  unfold commandStatus at h ⊢
  by_cases hmode : modeTable i s.straps.mode = false
  · rw [if_pos hmode]
    cases i <;>
      simp_all [exec, execSet_eq, execWrite_eq, execFlush_eq, execRefresh_eq, execReadbit_eq, not_acceptsOutput,
        not_acceptsInput]
  · rw [if_neg hmode] at h ⊢
    have hindex : (Instr.index? i).any (8 * s.straps.chainLength ≤ ·.toNat) = true := by
      by_contra hfits
      exact h (if_neg hfits)
    rw [if_pos hindex]
    cases i <;>
      simp_all [exec, execSet_eq, execWrite_eq, execReadbit_eq, Instr.index?, acceptsOutput_iff, acceptsInput_iff]

/-! What a flush and a refresh leave in the fields that the invariants read. -/

@[simp] theorem State.flush_straps (s : State) : s.flush.straps = s.straps := by rw [State.flush_eq]
@[simp] theorem State.flush_buf (s : State) : s.flush.buf = s.buf := by rw [State.flush_eq]
@[simp] theorem State.flush_cnt (s : State) : s.flush.cnt = s.cnt := by rw [State.flush_eq]
@[simp] theorem State.flush_dir (s : State) :
    s.flush.dir = if s.straps.mode = .dual then { s.dir with latch := .output } else s.dir := by rw [State.flush_eq]
@[simp] theorem State.flush_trace (s : State) : s.flush.trace = s.trace ++ flushEvents s.straps s.buf := by
  rw [State.flush_eq]
@[simp] theorem State.flush_responses (s : State) : s.flush.responses = s.responses := by rw [State.flush_eq]
@[simp] theorem State.flush_earlier (s : State) : s.flush.earlier = s.earlier := by rw [State.flush_eq]
@[simp] theorem State.flush_moves (s : State) : s.flush.moves = s.moves := by rw [State.flush_eq]
@[simp] theorem State.flush_injected (s : State) : s.flush.injected = s.injected := by rw [State.flush_eq]
@[simp] theorem State.flush_draws (s : State) : s.flush.draws = s.draws := by rw [State.flush_eq]

@[simp] theorem State.refresh_straps (s : State) : s.refresh.straps = s.straps := by rw [State.refresh_eq]; rfl
@[simp] theorem State.refresh_buf (s : State) :
    s.refresh.buf = captured s.buf s.inbit (8 * s.straps.chainLength) := by rw [State.refresh_eq]
@[simp] theorem State.refresh_cnt (s : State) : s.refresh.cnt = s.cnt := by rw [State.refresh_eq]; rfl
@[simp] theorem State.refresh_dir (s : State) :
    s.refresh.dir = if s.straps.mode = .dual then { s.dir with latch := .input } else s.dir := by rw [State.refresh_eq]
@[simp] theorem State.refresh_trace (s : State) : s.refresh.trace = s.trace ++ refreshEvents s.straps s.inbit := by
  rw [State.refresh_eq]
@[simp] theorem State.refresh_responses (s : State) : s.refresh.responses = s.responses := by rw [State.refresh_eq]; rfl
@[simp] theorem State.refresh_earlier (s : State) : s.refresh.earlier = s.earlier := by rw [State.refresh_eq]; rfl
@[simp] theorem State.refresh_moves (s : State) : s.refresh.moves = s.moves := by rw [State.refresh_eq]; rfl

/-! What the counter policy of a READBIT leaves (R106). -/

@[simp] theorem State.countRead_straps (s : State) : s.countRead.straps = s.straps := by
  unfold State.countRead; split <;> simp
@[simp] theorem State.countRead_dir (s : State) :
    s.countRead.dir =
      if s.cnt = 0#16 ∧ s.straps.mode = .dual then { s.dir with latch := .input } else s.dir := by
  unfold State.countRead; split <;> simp [*]
@[simp] theorem State.countRead_trace (s : State) :
    s.countRead.trace = s.trace ++ if s.cnt = 0#16 then refreshEvents s.straps s.inbit else [] := by
  unfold State.countRead; split <;> simp
@[simp] theorem State.countRead_responses (s : State) : s.countRead.responses = s.responses := by
  unfold State.countRead; split <;> simp
@[simp] theorem State.countRead_earlier (s : State) : s.countRead.earlier = s.earlier := by
  unfold State.countRead; split <;> simp
@[simp] theorem State.countRead_moves (s : State) : s.countRead.moves = s.moves := by
  unfold State.countRead; split <;> simp

/-! What the effect of any command leaves. -/

@[simp] theorem commandEffect_straps (i : Instr) (s : State) : (commandEffect i s).straps = s.straps := by
  cases i <;> simp [commandEffect]
@[simp] theorem commandEffect_trace (i : Instr) (s : State) :
    (commandEffect i s).trace = s.trace ++ commandEvents i s := by
  cases i <;> simp [commandEffect, commandEvents]
@[simp] theorem commandEffect_responses (i : Instr) (s : State) : (commandEffect i s).responses = s.responses := by
  cases i <;> simp [commandEffect]
@[simp] theorem commandEffect_earlier (i : Instr) (s : State) : (commandEffect i s).earlier = s.earlier := by
  cases i <;> simp [commandEffect]
@[simp] theorem commandEffect_moves (i : Instr) (s : State) : (commandEffect i s).moves = s.moves := by
  cases i <;> simp [commandEffect]

/-- The directions after a command's effect: only that of LATCH changes, in MODE = DUAL, to OUT by a flush and to IN by a
refresh (R27). -/
theorem commandEffect_dir (i : Instr) (s : State) :
    (commandEffect i s).dir =
      if s.straps.mode = .dual then
        match i with
        | .set _ _ => s.dir
        | .write _ _ => { s.dir with latch := .output }
        | .flush => { s.dir with latch := .output }
        | .refresh => { s.dir with latch := .input }
        | .readbit _ => if s.cnt = 0#16 then { s.dir with latch := .input } else s.dir
      else s.dir := by
  by_cases hm : s.straps.mode = .dual <;> cases i <;> simp [commandEffect, hm]

/-- A response that carries an error is not one that carries OK (R71). -/
theorem responseWord_ne_ok {st : Status} (h : st ≠ .ok) (b : Bit) : responseWord st false ≠ responseWord .ok b := by
  cases st with
  | ok => exact absurd rfl h
  | _ => cases b <;> decide

/-- Settles O39: a command that fails changes no line, and one that succeeds has its effect's directions. -/
theorem commandsKeepStrapsAndDirections : Obligations.CommandsKeepStrapsAndDirections := by
  intro i s
  by_cases hok : commandStatus i s.straps = .ok
  · refine ⟨_, exec_of_ok hok, by simp, by simp, by simp, ?_⟩
    have hanswer : ¬ ∀ b, ((commandEffect i s).answer .ok (commandRdata i (commandEffect i s))).responses ≠
        s.responses ++ [responseWord .ok b] := fun h =>
      h (commandRdata i (commandEffect i s)) (by simp)
    rw [if_neg hanswer, State.answer_dir, commandEffect_dir]
    by_cases hm : s.straps.mode = .dual
    · rw [if_pos hm]
      cases i with
      | readbit idx => by_cases hc : s.cnt = 0#16 <;> simp [hm, hc]
      | _ => simp [hm]
    · simp [hm]
  · refine ⟨_, exec_of_error hok, rfl, rfl, rfl, rfl, rfl, fun _ => rfl, fun _ => ?_⟩
    have hanswer : ∀ b, (s.answer (commandStatus i s.straps) false).responses ≠ s.responses ++ [responseWord .ok b] :=
      fun b h => responseWord_ne_ok hok b (by simpa using h)
    rw [if_pos hanswer, State.answer_dir]

end Sys2Proof.Machine
end

section
/-! SUPPORT. Two runs of one command: from states that differ in what no command reads (spec/10_state.md R31), and from
states that differ in the input oracle, which only a refresh reads (R37). -/

namespace Sys2Proof.Machine

/-- The controller with another input oracle: other injected bits and another number of draws taken. -/
def State.withOracle (bits : List Bit) (n : Nat) (s : State) : State := { s with injected := bits, draws := n }

/-- Whether a command's effect reads the input oracle: that of a REFRESH, and of a READBIT that refreshes (R106). -/
def drawsInput (i : Instr) (s : State) : Prop := i = .refresh ∨ Instr.isRead i = true ∧ s.cnt = 0#16

theorem State.flush_withOracle (bits : List Bit) (n : Nat) (s : State) :
    (s.withOracle bits n).flush = s.flush.withOracle bits n := by
  rw [State.flush_eq, State.flush_eq]; rfl

theorem State.countRead_withOracle {s : State} (h : s.cnt ≠ 0#16) (bits : List Bit) (n : Nat) :
    (s.withOracle bits n).countRead = s.countRead.withOracle bits n := by
  rw [State.countRead_of_ne h, State.countRead_of_ne (s := s.withOracle bits n) h]; rfl

/-- An effect that does not read the oracle is the same for every oracle (R37). -/
theorem commandEffect_withOracle {i : Instr} {s : State} (h : ¬ drawsInput i s) (bits : List Bit) (n : Nat) :
    commandEffect i (s.withOracle bits n) = (commandEffect i s).withOracle bits n := by
  cases i with
  | set idx v => rfl
  | write idx v => exact (s.setIndexBit idx.toNat v).flush_withOracle bits n
  | flush => exact s.flush_withOracle bits n
  | refresh => exact absurd (.inl rfl) h
  | readbit idx => exact State.countRead_withOracle (fun hc => h (.inr ⟨rfl, hc⟩)) bits n

/-- And it takes no draw. -/
theorem commandEffect_draws {i : Instr} {s : State} (h : ¬ drawsInput i s) :
    (commandEffect i s).injected = s.injected ∧ (commandEffect i s).draws = s.draws := by
  cases i with
  | set idx v => exact ⟨rfl, rfl⟩
  | write idx v => simp [commandEffect]
  | flush => simp [commandEffect]
  | refresh => exact absurd (.inl rfl) h
  | readbit idx => rw [commandEffect, State.countRead_of_ne fun hc => h (.inr ⟨rfl, hc⟩)]; exact ⟨rfl, rfl⟩

theorem commandRdata_withOracle (i : Instr) (bits : List Bit) (n : Nat) (t : State) :
    commandRdata i (t.withOracle bits n) = commandRdata i t := by
  cases i <;> rfl

/-- Settles O41: the checks read the straps alone, and the effect reads the oracle only in a refresh. -/
theorem onlyRefreshesReadTheOracle : Obligations.OnlyRefreshesReadTheOracle := by
  intro i s bits n href hread
  have hdraws : ¬ drawsInput i s := by rintro (h | ⟨h, hc⟩); exacts [href h, hread h hc]
  obtain ⟨hinj, hcount⟩ := commandEffect_draws hdraws
  by_cases hok : commandStatus i s.straps = .ok
  · refine ⟨_, exec_of_ok hok, hinj, hcount, ?_⟩
    have hother := exec_of_ok (s := s.withOracle bits n) hok
    rw [commandEffect_withOracle hdraws, commandRdata_withOracle] at hother
    exact hother
  · exact ⟨_, exec_of_error hok, rfl, rfl, exec_of_error (s := s.withOracle bits n) hok⟩

/-- The controller with another observation, other ended runs and other moves of the host to come. -/
def State.observing (tr : List Event) (rs : List Word) (runs : List Run) (ms : List HostMove) (s : State) : State :=
  { s with trace := tr, responses := rs, earlier := runs, moves := ms }

section
variable (tr : List Event) (rs : List Word) (runs : List Run) (ms : List HostMove)

theorem State.flush_observing (s : State) :
    (s.observing tr rs runs ms).flush = s.flush.observing (tr ++ flushEvents s.straps s.buf) rs runs ms := by
  rw [State.flush_eq, State.flush_eq]; rfl

theorem State.refresh_observing (s : State) :
    (s.observing tr rs runs ms).refresh = s.refresh.observing (tr ++ refreshEvents s.straps s.inbit) rs runs ms := by
  rw [State.refresh_eq, State.refresh_eq]; rfl

/-- An effect appends the same events to every trace, and reads nothing of the observation (R31). -/
theorem commandEffect_observing (i : Instr) (s : State) :
    commandEffect i (s.observing tr rs runs ms) =
      (commandEffect i s).observing (tr ++ commandEvents i s) rs runs ms := by
  cases i with
  | set idx v => rw [commandEvents, List.append_nil]; rfl
  | write idx v => exact (s.setIndexBit idx.toNat v).flush_observing tr rs runs ms
  | flush => exact s.flush_observing tr rs runs ms
  | refresh => exact s.refresh_observing tr rs runs ms
  | readbit idx =>
    rw [commandEffect, commandEffect, commandEvents]
    by_cases hc : s.cnt = 0#16
    · rw [State.countRead_of_zero hc, State.countRead_of_zero (s := s.observing tr rs runs ms) hc, if_pos hc,
        State.refresh_observing]
      rfl
    · rw [State.countRead_of_ne hc, State.countRead_of_ne (s := s.observing tr rs runs ms) hc, if_neg hc,
        List.append_nil]
      rfl

theorem commandRdata_observing (i : Instr) (t : State) :
    commandRdata i (t.observing tr rs runs ms) = commandRdata i t := by
  cases i <;> rfl

end

/-- Settles O42: the checks read the straps alone, and the effect appends its events whatever the trace. -/
theorem controllerNeverReadsTheTrace : Obligations.ControllerNeverReadsTheTrace := by
  intro i s tr rs runs ms
  by_cases hok : commandStatus i s.straps = .ok
  · refine ⟨_, commandEvents i s, responseWord .ok (commandRdata i (commandEffect i s)), exec_of_ok hok, by simp,
      by simp, ?_⟩
    have hother := exec_of_ok (s := s.observing tr rs runs ms) hok
    rw [commandEffect_observing, commandRdata_observing] at hother
    exact hother
  · refine ⟨_, [], responseWord (commandStatus i s.straps) false, exec_of_error hok, by simp, by simp, ?_⟩
    rw [List.append_nil]
    exact exec_of_error (s := s.observing tr rs runs ms) hok

end Sys2Proof.Machine
end

section
/-! SUPPORT. The invariant of spec/10_state.md R39: a reset has it, and every effect of a command keeps it. -/

namespace Sys2Proof.Machine

/-- What a reset with legal straps leaves (R38, R150). -/
theorem resetWith_of_legal {c : Straps} (h : c.legal = true) (s : State) :
    resetWith c s = .next { State.afterReset c with
      earlier := s.earlier ++ [{ straps := s.straps, responses := s.responses, trace := s.trace }]
      moves := s.moves
      injected := s.injected
      draws := s.draws } := by
  rw [resetWith, if_pos h]

/-- A reset that answers a next state took legal straps. -/
theorem legal_of_resetWith {c : Straps} {s t : State} (h : resetWith c s = .next t) : c.legal = true := by
  by_contra hc
  rw [resetWith_of_illegal (by simpa using hc)] at h
  cases h

/-- R38: at reset LATCH has a direction that the mode allows. -/
theorem latchDirAllowed_resetDirs (m : Mode) : latchDirAllowed m (resetDirs m).latch := by
  cases m with
  | output => rfl
  | input => rfl
  | dual => trivial

/-- R38, R39: a reset has the invariant, whatever the environment holds. -/
theorem inv_afterReset {c : Straps} (h : c.legal = true) : (State.afterReset c).Inv where
  straps_legal := h
  buf_wf := Memory.wf_nil
  buf_within := fun _ hc => nomatch hc
  clk_low := rfl
  latch_low := rfl
  cnt_lt := by have := (Straps.legal_iff.1 h).1; simp [State.afterReset, resetCount]; omega
  data_out := rfl
  clk_out := rfl
  latch_dir := latchDirAllowed_resetDirs c.mode
  dual_latch := fun hm => by simp [State.afterReset, resetDirs, endsWithRefresh, show c.mode = .dual from hm]
  output_cnt := fun _ => rfl

/-- The invariant reads neither the responses nor the model's own fields. -/
theorem State.Inv.withEnvironment {s : State} (h : s.Inv) (rs : List Word) (runs : List Run) (ms : List HostMove)
    (bits : List Bit) (n : Nat) :
    State.Inv { s with responses := rs, earlier := runs, moves := ms, injected := bits, draws := n } :=
  { h with }

theorem State.Inv.answer {s : State} (h : s.Inv) (st : Status) (b : Bit) : (s.answer st b).Inv :=
  h.withEnvironment _ _ _ _ _

/-- R80: a bit staged keeps the invariant. -/
theorem State.Inv.setIndexBit {s : State} (h : s.Inv) {p : Nat} (hp : p < 8 * s.straps.chainLength) (v : Bit) :
    (s.setIndexBit p v).Inv :=
  { h with
    buf_wf := Memory.wf_withBit h.buf_wf _ _ v
    buf_within := Memory.lt_withBit h.buf_within (by unfold byteOf; omega) _ v }

/-- A flush's events end with `DRV(LATCH, 0)` (R85). -/
theorem flush_not_endsWithRefresh (s : State) : ¬ endsWithRefresh s.flush.trace := by
  rw [endsWithRefresh, State.flush_trace, flushEvents, ← List.append_assoc,
    List.getLast?_append_of_ne_nil _ (List.cons_ne_nil _ _)]
  decide

/-- A refresh's events end with `DRV(CLK, 0)` (R103). -/
theorem refresh_endsWithRefresh (s : State) : endsWithRefresh s.refresh.trace := by
  rw [endsWithRefresh, State.refresh_trace, refreshEvents, ← List.append_assoc,
    List.getLast?_append_of_ne_nil _ (List.cons_ne_nil _ _)]
  rfl

/-- R84: a flush keeps the invariant. -/
theorem State.Inv.flush {s : State} (h : s.Inv) : s.flush.Inv where
  straps_legal := by simpa using h.straps_legal
  buf_wf := by simpa using h.buf_wf
  buf_within := by simpa using h.buf_within
  clk_low := by rw [State.flush_eq]
  latch_low := by rw [State.flush_eq]
  cnt_lt := by simpa using h.cnt_lt
  data_out := by rw [State.flush_dir]; split <;> exact h.data_out
  clk_out := by rw [State.flush_dir]; split <;> exact h.clk_out
  latch_dir := by
    rw [State.flush_straps, State.flush_dir]
    split
    · simp [latchDirAllowed, *]
    · exact h.latch_dir
  dual_latch := fun hd => by
    rw [State.flush_straps] at hd
    simp [hd, flush_not_endsWithRefresh, -State.flush_trace]
  output_cnt := by simpa using h.output_cnt

/-- R100: a refresh keeps the invariant. -/
theorem State.Inv.refresh {s : State} (h : s.Inv) : s.refresh.Inv where
  straps_legal := by simpa using h.straps_legal
  buf_wf := by simpa using wf_captured h.buf_wf _ _
  buf_within := by simpa using lt_captured h.buf_within _ _ le_rfl
  clk_low := by rw [State.refresh_eq]
  latch_low := by rw [State.refresh_eq]; exact h.latch_low
  cnt_lt := by simpa using h.cnt_lt
  data_out := by rw [State.refresh_dir]; split <;> exact h.data_out
  clk_out := by rw [State.refresh_dir]; split <;> exact h.clk_out
  latch_dir := by
    rw [State.refresh_straps, State.refresh_dir]
    split
    · simp [latchDirAllowed, *]
    · exact h.latch_dir
  dual_latch := fun hd => by
    rw [State.refresh_straps] at hd
    simp [hd, refresh_endsWithRefresh, -State.refresh_trace]
  output_cnt := by simpa using h.output_cnt

/-- R24, R105: a counter value in range keeps the invariant outside MODE = OUTPUT. -/
theorem State.Inv.setCnt {s : State} (h : s.Inv) (hm : s.straps.mode ≠ .output) {c : BitVec 16}
    (hc : c.toNat < 8 * s.straps.chainLength) : State.Inv { s with cnt := c } :=
  { h with
    cnt_lt := hc
    output_cnt := fun ho => absurd ho hm }

/-- R106: the counter policy keeps the invariant, in the modes that accept a READBIT. -/
theorem State.Inv.countRead {s : State} (h : s.Inv) (hm : s.straps.mode ≠ .output) : s.countRead.Inv := by
  have hlt := h.cnt_lt
  by_cases hc : s.cnt = 0#16
  · have hrestart := State.countRead_cnt_of_zero h.straps_legal hc
    rw [State.countRead_of_zero hc] at hrestart ⊢
    exact h.refresh.setCnt (by simpa using hm) (by simp only [State.refresh_straps] at *; omega)
  · have hdown := State.countRead_cnt_of_ne hc
    rw [State.countRead_of_ne hc] at hdown ⊢
    exact h.setCnt hm (by simp only at *; omega)

/-- The effect of a command whose checks pass keeps the invariant. -/
theorem State.Inv.of_commandEffect {s : State} (h : s.Inv) {i : Instr} (hok : commandStatus i s.straps = .ok) :
    (commandEffect i s).Inv := by
  have haccepted := accepted_of_status_ok hok
  cases i with
  | set idx v => exact h.setIndexBit haccepted.2 v
  | write idx v => exact (h.setIndexBit haccepted.2 v).flush
  | flush => exact h.flush
  | refresh => exact h.refresh
  | readbit idx => exact h.countRead haccepted.1

theorem State.Inv.of_exec {s t : State} (h : s.Inv) {i : Instr} (ht : exec i s = .next t) : t.Inv := by
  by_cases hok : commandStatus i s.straps = .ok
  · obtain rfl := Host.Outcome.next.inj ((exec_of_ok hok).symm.trans ht)
    exact (h.of_commandEffect hok).answer _ _
  · obtain rfl := Host.Outcome.next.inj ((exec_of_error hok).symm.trans ht)
    exact h.answer _ _

/-- A command word runs its command, or answers ERR_ILLEGAL (R121). -/
theorem runWord_cases {w : Word} {s t : State} (h : runWord w s = .next t) :
    (∃ i, exec i s = .next t) ∨ t = s.answer .errIllegal false := by
  unfold runWord at h
  split at h
  · exact .inl ⟨_, h⟩
  · exact .inr (Host.Outcome.next.inj h).symm

theorem State.Inv.of_runWord {s t : State} (h : s.Inv) {w : Word} (ht : runWord w s = .next t) : t.Inv := by
  obtain ⟨i, hi⟩ | rfl := runWord_cases ht
  · exact h.of_exec hi
  · exact h.answer _ _

theorem State.Inv.withMoves {s : State} (h : s.Inv) (ms : List HostMove) : State.Inv { s with moves := ms } :=
  h.withEnvironment _ _ _ _ _

/-- A reset has the invariant, whatever the state before it (R38). -/
theorem inv_of_resetWith {c : Straps} {s t : State} (h : resetWith c s = .next t) : t.Inv := by
  have hc := legal_of_resetWith h
  obtain rfl := Host.Outcome.next.inj ((resetWith_of_legal hc s).symm.trans h)
  exact (inv_afterReset hc).withEnvironment _ _ _ _ _

/-- Settles O43, by the host's move. -/
theorem stepKeepsInvariant : Obligations.StepKeepsInvariant := by
  intro s t h hstep
  obtain ⟨-, ⟨-, rfl⟩ | ⟨w, rest, -, hrun⟩ | ⟨c, rest, -, hreset⟩ | ⟨w, k, c, rest, -, done, -, hreset⟩⟩ :=
    step_cases hstep
  · exact h
  · exact (h.withMoves rest).of_runWord hrun
  · exact inv_of_resetWith hreset
  · exact inv_of_resetWith hreset

/-- Settles O16, from what a reset with legal straps leaves. -/
theorem resetSetsEveryValue : Obligations.ResetSetsEveryValue := by
  intro s c rest hs hmoves hc
  have hstep : step s = resetWith c { s with moves := rest } := by rw [step_of_legal hs, nextMove, hmoves]
  refine ⟨_, hstep.trans (resetWith_of_legal hc _), rfl, fun _ _ => rfl, rfl, rfl, rfl, ?_, rfl, rfl, rfl, rfl, rfl,
    rfl, rfl⟩
  cases hm : c.mode <;> simp [State.afterReset, resetDirs, hm]

end Sys2Proof.Machine
end

section
/-! SUPPORT. The trace invariant (spec/10_state.md R31; spec/70_reset_and_hazards.md R156): a command appends events that
obey the directions and leave its lines, and a reset, cut short or not, begins an empty trace. -/

namespace Sys2Proof.Machine

/-- A flush's events after the switch of LATCH obey the directions where all three lines are OUT (R85). -/
theorem flushBody_obeys {d : Pins Dir} (hdata : d.data = .output) (hclk : d.clk = .output) (hlatch : d.latch = .output)
    (b : Nat → Bit) (n : Nat) :
    obeysDirections d ([Event.drv .clk false] ++ (List.range n).flatMap (fun t => outPeriod (b t)) ++
      [Event.drv .latch true, Event.drv .latch false]) = true := by
  simp [obeysDirections, obeysDirections_outPeriods hdata hclk, hclk, hlatch]

/-- A refresh's events after the switch of LATCH obey the directions where LATCH is IN and the others OUT (R103). -/
theorem refreshBody_obeys {d : Pins Dir} (hdata : d.data = .output) (hclk : d.clk = .output) (hlatch : d.latch = .input)
    (sp : SamplePoint) (b : Nat → Bit) (n : Nat) :
    obeysDirections d ([Event.drv .clk false] ++ [Event.drv .data true, Event.drv .data false] ++
      (List.range n).flatMap (fun t => scanPeriod sp (b t)) ++ [Event.drv .clk true, Event.drv .clk false]) = true := by
  simp [obeysDirections, obeysDirections_scanPeriods sp hlatch hclk, hclk, hdata]

/-- A flush's events obey the directions, in the modes that accept one: LATCH is OUT already, or made so first (R84). -/
theorem State.Inv.flushEvents_obey {s : State} (h : s.Inv) (hm : s.straps.mode ≠ .input) :
    obeysDirections s.dir (flushEvents s.straps s.buf) = true := by
  have hlatch := h.latch_dir
  rw [flushEvents]
  cases hmode : s.straps.mode with
  | input => exact absurd hmode hm
  | output =>
    rw [hmode] at hlatch
    exact flushBody_obeys h.data_out h.clk_out hlatch _ _
  | dual => exact flushBody_obeys (d := { s.dir with latch := .output }) h.data_out h.clk_out rfl _ _

/-- A refresh's events obey the directions: LATCH is IN already, or made so first (R100). -/
theorem State.Inv.refreshEvents_obey {s : State} (h : s.Inv) (hm : s.straps.mode ≠ .output) (inbits : Nat → Bit) :
    obeysDirections s.dir (refreshEvents s.straps inbits) = true := by
  have hlatch := h.latch_dir
  rw [refreshEvents]
  cases hmode : s.straps.mode with
  | output => exact absurd hmode hm
  | input =>
    rw [hmode] at hlatch
    exact refreshBody_obeys h.data_out h.clk_out hlatch _ _ _
  | dual => exact refreshBody_obeys (d := { s.dir with latch := .input }) h.data_out h.clk_out rfl _ _ _

/-- The events of a command whose checks pass obey the directions. -/
theorem State.Inv.commandEvents_obey {s : State} (h : s.Inv) {i : Instr} (hok : commandStatus i s.straps = .ok) :
    obeysDirections s.dir (commandEvents i s) = true := by
  have haccepted := accepted_of_status_ok hok
  cases i with
  | set idx v => rfl
  | write idx v => exact (h.setIndexBit haccepted.2 v).flushEvents_obey haccepted.1
  | flush => exact h.flushEvents_obey haccepted
  | refresh => exact h.refreshEvents_obey haccepted _
  | readbit idx =>
    rw [commandEvents]
    split
    · exact h.refreshEvents_obey haccepted.1 _
    · rfl

/-- The events of a command leave the lines as its effect does (R25, R31). -/
theorem afterAll_commandEvents (i : Instr) (s : State) :
    s.lines.afterAll (commandEvents i s) = (commandEffect i s).lines := by
  cases i with
  | set idx v => rfl
  | write idx v => exact (s.setIndexBit idx.toNat v).afterAll_flushEvents
  | flush => exact s.afterAll_flushEvents
  | refresh => exact s.afterAll_refreshEvents
  | readbit idx =>
    rw [commandEvents, commandEffect]
    by_cases hc : s.cnt = 0#16
    · rw [if_pos hc, State.countRead_of_zero hc]
      exact s.afterAll_refreshEvents
    · rw [if_neg hc, State.countRead_of_ne hc]
      rfl

/-- A run from `s` to `t` that a reset did not end: it appends `es`, which obey the directions and leave the lines of `t`. -/
structure AppendsEvents (s t : State) (es : List Event) : Prop where
  trace : t.trace = s.trace ++ es
  obeys : obeysDirections s.dir es = true
  lines : s.lines.afterAll es = t.lines
  straps : t.straps = s.straps
  earlier : t.earlier = s.earlier

/-- A response is no event. -/
theorem AppendsEvents.answer (s : State) (st : Status) (b : Bit) : AppendsEvents s (s.answer st b) [] :=
  ⟨by simp, rfl, rfl, rfl, rfl⟩

theorem State.Inv.exec_appendsEvents {s t : State} (h : s.Inv) {i : Instr} (ht : exec i s = .next t) :
    ∃ es, AppendsEvents s t es := by
  by_cases hok : commandStatus i s.straps = .ok
  · obtain rfl := Host.Outcome.next.inj ((exec_of_ok hok).symm.trans ht)
    exact ⟨commandEvents i s, by simp, h.commandEvents_obey hok, afterAll_commandEvents i s, by simp, by simp⟩
  · obtain rfl := Host.Outcome.next.inj ((exec_of_error hok).symm.trans ht)
    exact ⟨[], .answer _ _ _⟩

theorem State.Inv.runWord_appendsEvents {s t : State} (h : s.Inv) {w : Word} (ht : runWord w s = .next t) :
    ∃ es, AppendsEvents s t es := by
  obtain ⟨i, hi⟩ | rfl := runWord_cases ht
  · exact h.exec_appendsEvents hi
  · exact ⟨[], .answer _ _ _⟩

/-- The first events of a list that obeys the directions obey them. -/
theorem obeysDirections_take {d : Pins Dir} {es : List Event} (h : obeysDirections d es = true) (k : Nat) :
    obeysDirections d (es.take k) = true := by
  rw [← List.take_append_drop k es, obeysDirections_append { dir := d, lvl := resetLevels }, Bool.and_eq_true] at h
  exact h.1

/-- What is appended to the trace obeys the directions from reset on, where it obeys them from the lines at present. -/
theorem State.TraceInv.obeys_append {s : State} (h : s.TraceInv) {es : List Event}
    (hes : obeysDirections s.dir es = true) : obeysDirections (resetDirs s.straps.mode) (s.trace ++ es) = true := by
  have happend := obeysDirections_append (resetLines s.straps) s.trace es
  rw [h.lines_follow] at happend
  exact happend.trans (by rw [Bool.and_eq_true]; exact ⟨h.obeys, hes⟩)

theorem State.TraceInv.appendsEvents {s t : State} (h : s.TraceInv) {es : List Event} (ht : AppendsEvents s t es) :
    t.TraceInv where
  lines_follow := by rw [ht.straps, ht.trace, Lines.afterAll_append, h.lines_follow, ht.lines]
  obeys := by rw [ht.straps, ht.trace]; exact h.obeys_append ht.obeys
  earlier_obey := by rw [ht.earlier]; exact h.earlier_obey

theorem traceInv_afterReset (c : Straps) : (State.afterReset c).TraceInv := ⟨rfl, rfl, fun _ hr => nomatch hr⟩

/-- A reset keeps the trace invariant where the run it ends obeys the directions: its own trace is empty (R150). -/
theorem traceInv_of_resetWith {c : Straps} {s t : State} (h : resetWith c s = .next t)
    (hobeys : obeysDirections (resetDirs s.straps.mode) s.trace = true)
    (hearlier : ∀ r ∈ s.earlier, obeysDirections (resetDirs r.straps.mode) r.trace = true) : t.TraceInv := by
  obtain rfl := Host.Outcome.next.inj ((resetWith_of_legal (legal_of_resetWith h) s).symm.trans h)
  refine { traceInv_afterReset c with earlier_obey := fun r hr => ?_ }
  obtain hr | hr := List.mem_append.1 hr
  · exact hearlier r hr
  · obtain rfl := List.mem_singleton.1 hr
    exact hobeys

/-- A command that a reset cuts leaves the first of its events in the trace (R152). -/
theorem State.cutShort_trace {s done : State} {es : List Event} (h : done.trace = s.trace ++ es) (k : Nat) :
    (s.cutShort done k).trace = s.trace ++ es.take k := by
  simp [State.cutShort, h]

theorem State.TraceInv.withMoves {s : State} (h : s.TraceInv) (ms : List HostMove) :
    State.TraceInv { s with moves := ms } := { h with }

/-- Settles O45, by the host's move: a command appends its events, and a reset, with what it leaves of a command, ends a
run that obeyed the directions. -/
theorem stepKeepsTraceInvariant : Obligations.StepKeepsTraceInvariant := by
  intro s t h htr hstep
  obtain ⟨-, ⟨-, rfl⟩ | ⟨w, rest, -, hrun⟩ | ⟨c, rest, -, hreset⟩ | ⟨w, k, c, rest, -, done, hrun, hreset⟩⟩ :=
    step_cases hstep
  · exact htr
  · obtain ⟨es, hes⟩ := (h.withMoves rest).runWord_appendsEvents hrun
    exact (htr.withMoves rest).appendsEvents hes
  · exact traceInv_of_resetWith hreset htr.obeys htr.earlier_obey
  · obtain ⟨es, hes⟩ := (h.withMoves rest).runWord_appendsEvents hrun
    refine traceInv_of_resetWith hreset ?_ htr.earlier_obey
    rw [State.cutShort_trace hes.trace]
    exact htr.obeys_append (obeysDirections_take hes.obeys k)

/-- Settles O44, from the values a reset gives. -/
theorem resetMeetsInvariants : Obligations.ResetMeetsInvariants :=
  ⟨fun c hc => ⟨inv_afterReset hc, traceInv_afterReset c⟩, rfl, rfl⟩

end Sys2Proof.Machine
end

section
/-! SUPPORT. The command fetched from the host port (spec/20_memory.md R48): a step runs the word that the host presents. -/

namespace Sys2Proof.Machine

/-- R140: a word that decodes runs its command. -/
theorem runWord_of_decode {w : Word} {i : Instr} (h : decode w = .ok i) (s : State) : runWord w s = exec i s := by
  rw [runWord, h]

/-- A step whose next move is a word that decodes runs its command, on the state without that move (R139). -/
theorem step_of_command {s : State} {w : Word} {rest : List HostMove} {i : Instr} (hs : s.straps.legal = true)
    (hmoves : s.moves = .command w :: rest) (hw : decode w = .ok i) : step s = exec i { s with moves := rest } := by
  rw [step_of_legal hs, nextMove, hmoves]
  exact runWord_of_decode hw _

/-- The host port carries the number of a word as that word (R44). -/
theorem State.withFetchWord_toNat (s : State) (w : Word) : s.withFetchWord 32 w.toNat = s.present w := by
  rw [State.withFetchWord, Nat.mod_eq_of_lt w.isLt, BitVec.ofNat_toNat, BitVec.setWidth_eq]

/-- Settles O14: the host's next move (log 2) is the word, or `withFetchWord` has put it before the moves of `s`. -/
theorem stepRunsTheDecodedCommand : Obligations.StepRunsTheDecodedCommand := by
  refine ⟨fun s w rest i => step_of_command, fun s w i hs hw => ?_⟩
  rw [State.withFetchWord_toNat]
  exact step_of_command (s := s.present w) (rest := s.moves) hs rfl hw

end Sys2Proof.Machine
end

section
/-! SUPPORT. The serial order of the buffer's bits (spec/20_memory.md R42, R43), and how often a flush and a refresh drive
each line (spec/40_output_path.md R85; spec/41_input_path.md R103). -/

namespace Sys2Proof.Machine

/-- R42: only the bit periods of a flush drive DATA, each with one bit of the buffer. -/
theorem dataValues_flushEvents (c : Straps) (buf : Memory) :
    dataValues (flushEvents c buf) = (List.range (8 * c.chainLength)).map (serialOut buf) := by
  simp only [flushEvents, dataValues_append, dataValues_outPeriods]
  split <;> simp [dataValues, Event.dataLevel?, List.filterMap_cons]

/-- R43: only the bit periods of a refresh sample, each the next draw. -/
theorem sampledValues_refreshEvents (c : Straps) (inbits : Nat → Bit) :
    sampledValues (refreshEvents c inbits) = (List.range (8 * c.chainLength)).map inbits := by
  simp only [refreshEvents, sampledValues_append, sampledValues_scanPeriods]
  split <;> simp [sampledValues, Event.sampled?, List.filterMap_cons]

/-- R43: the t-th sample stands in the t-th bit of the serial order. -/
theorem serialOut_captured {m : Memory} (h : m.wf) (inbits : Nat → Bit) {n t : Nat} (ht : t < n) :
    serialOut (captured m inbits n) t = inbits t := by
  have hplace : 8 * (t / 8) + (7 - (7 - t % 8)) = t := by omega
  rw [serialOut, bit_captured h inbits n _ _ (by omega), hplace, if_pos ht]

/-- Settles O25, from the events of a flush. -/
theorem flushSerialOrder : Obligations.FlushSerialOrder := fun s hm =>
  ⟨_, _, exec_flush_ok hm, s.flush_trace, dataValues_flushEvents s.straps s.buf⟩

/-- Settles O26, from the events of a refresh and the buffer it captures. -/
theorem refreshSerialOrder : Obligations.RefreshSerialOrder := fun s hm hbuf =>
  ⟨_, _, exec_refresh_ok hm, s.refresh_trace, sampledValues_refreshEvents s.straps s.inbit, fun k hk => by
    rw [State.answer_buf, State.refresh_buf]
    exact serialOut_captured hbuf s.inbit hk⟩

/-- `n` periods that each hold an event `k` times. -/
theorem count_flatMap_range {e : Event} {k : Nat} {f : Nat → List Event} (h : ∀ t, (f t).count e = k) (n : Nat) :
    ((List.range n).flatMap f).count e = n * k := by
  simp [List.count_flatMap, Function.comp_def, h]

/-- R83: a bit period of the output path is one CLK pulse. -/
theorem outPeriod_count_clk (l x : Bit) : (outPeriod x).count (.drv .clk l) = 1 := by
  cases l <;> rfl

/-- R83: it does not drive LATCH. -/
theorem outPeriod_count_latch (l x : Bit) : (outPeriod x).count (.drv .latch l) = 0 := rfl

/-- R102: a bit period of the input path is one CLK pulse, wherever the sample stands. -/
theorem scanPeriod_count_clk (sp : SamplePoint) (l x : Bit) : (scanPeriod sp x).count (.drv .clk l) = 1 := by
  cases sp <;> cases l <;> rfl

/-- R102: it drives no other line. -/
theorem scanPeriod_count_of_ne {p : Pin} (hp : p ≠ .clk) (sp : SamplePoint) (l x : Bit) :
    (scanPeriod sp x).count (.drv p l) = 0 := by
  cases sp <;> simp [scanPeriod, hp.symm]

/-- R85: how often a flush makes a drive that each bit period makes `k` times. -/
theorem count_flushEvents {p : Pin} {l : Bit} {k : Nat} (h : ∀ x, (outPeriod x).count (.drv p l) = k) (c : Straps)
    (buf : Memory) :
    (flushEvents c buf).count (.drv p l) =
      8 * c.chainLength * k + [Event.drv .clk false, .drv .latch true, .drv .latch false].count (.drv p l) := by
  simp only [flushEvents, List.count_append, count_flatMap_range fun t => h (serialOut buf t)]
  split <;> simp [List.count_cons] <;> omega

/-- R103: how often a refresh makes a drive that each bit period makes `k` times. -/
theorem count_refreshEvents {c : Straps} {p : Pin} {l : Bit} {k : Nat}
    (h : ∀ x, (scanPeriod c.samplePoint x).count (.drv p l) = k) (inbits : Nat → Bit) :
    (refreshEvents c inbits).count (.drv p l) =
      8 * c.chainLength * k +
        [Event.drv .clk false, .drv .data true, .drv .data false, .drv .clk true, .drv .clk false].count (.drv p l) := by
  simp only [refreshEvents, List.count_append, count_flatMap_range fun t => h (inbits t)]
  split <;> simp [List.count_cons] <;> omega

/-- R54, R84: a flush pulses LATCH once and CLK once in each bit period, after one drive of CLK low. -/
theorem flushEvents_pulses (c : Straps) (buf : Memory) :
    (flushEvents c buf).count (.drv .latch true) = 1 ∧ (flushEvents c buf).count (.drv .latch false) = 1 ∧
    (flushEvents c buf).count (.drv .clk true) = 8 * c.chainLength ∧
    (flushEvents c buf).count (.drv .clk false) = 8 * c.chainLength + 1 := by
  have hclk (l : Bit) := count_flushEvents (outPeriod_count_clk l) c buf
  have hlatch (l : Bit) := count_flushEvents (outPeriod_count_latch l) c buf
  exact ⟨by simp [hlatch], by simp [hlatch], by simp [hclk], by simp [hclk]⟩

/-- R100, R107 (c): a refresh pulses DATA once, CLK once in each bit period and once more, and never drives LATCH. -/
theorem refreshEvents_pulses (c : Straps) (inbits : Nat → Bit) :
    (refreshEvents c inbits).count (.drv .data true) = 1 ∧ (refreshEvents c inbits).count (.drv .data false) = 1 ∧
    (refreshEvents c inbits).count (.drv .clk true) = 8 * c.chainLength + 1 ∧
    (refreshEvents c inbits).count (.drv .clk false) = 8 * c.chainLength + 2 ∧
    ∀ l, (refreshEvents c inbits).count (.drv .latch l) = 0 := by
  have hclk (l : Bit) := count_refreshEvents (scanPeriod_count_clk c.samplePoint l) inbits
  have hother {p : Pin} (hp : p ≠ .clk) (l : Bit) :=
    count_refreshEvents (scanPeriod_count_of_ne hp c.samplePoint l) inbits
  exact ⟨by simp [hother], by simp [hother], by simp [hclk], by simp [hclk], fun l => by simp [hother]⟩

/-- Settles O29, from the events of the two commands. -/
theorem pulsesPerCommand : Obligations.PulsesPerCommand := fun s =>
  ⟨fun hm => ⟨_, _, exec_flush_ok hm, s.flush_trace, flushEvents_pulses s.straps s.buf⟩,
    fun hm => ⟨_, _, exec_refresh_ok hm, s.refresh_trace, refreshEvents_pulses s.straps s.inbit⟩⟩

end Sys2Proof.Machine
end

section
/-! SUPPORT. The decoder and the encoder are inverse to each other, and both follow the opcode map
(spec/30_encoding.md R65 to R68). -/

namespace Sys2Proof

open Sys2Proof.Laws

/-- A command's word decodes to the command (R65, R66). -/
theorem decode_encode (i : Instr) : decode (encode i) = .ok i := by
  rw [decode_eq]
  cases i with
  | set idx v =>
    obtain ⟨hop, hrsv, hv, hidx⟩ := EncodeFields.set idx v
    simp [hop, hrsv, hv, hidx]
  | write idx v =>
    obtain ⟨hop, hrsv, hv, hidx⟩ := EncodeFields.write idx v
    simp [hop, hrsv, hv, hidx]
  | flush =>
    obtain ⟨hop, hrsv, hv, hidx⟩ := EncodeFields.flush
    simp [hop, hrsv, hv, hidx]
  | refresh =>
    obtain ⟨hop, hrsv, hv, hidx⟩ := EncodeFields.refresh
    simp [hop, hrsv, hv, hidx]
  | readbit idx =>
    obtain ⟨hop, hrsv, hv, hidx⟩ := EncodeFields.readbit idx
    simp [hop, hrsv, hv, hidx]

/-- A word is laid out from its own fields (R65). -/
theorem fields_eq_word {w : Word} {o : BitVec 4} {r : BitVec 11} {v : Bit} {x : Index} (ho : opField w = o)
    (hr : rsvField w = r) (hv : valueField w = v) (hx : indexField w = x) : o ++ r ++ BitVec.ofBool v ++ x = w := by
  rw [← ho, ← hr, ← hv, ← hx]
  exact (word_eq_fields w).symm

/-- A word that decodes has its command's opcode, and zero in every field that is no operand (R66). -/
theorem encode_of_decode {w : Word} {i : Instr} (h : decode w = .ok i) : encode i = w := by
  rw [decode_eq] at h
  split_ifs at h with hset hwrite hflush hrefresh hread <;> cases h
  · obtain ⟨hop, hrsv⟩ := hset
    exact fields_eq_word hop hrsv rfl rfl
  · obtain ⟨hop, hrsv⟩ := hwrite
    exact fields_eq_word hop hrsv rfl rfl
  · obtain ⟨hop, hrsv, hv, hidx⟩ := hflush
    exact (fields_eq_word hop hrsv hv hidx :)
  · obtain ⟨hop, hrsv, hv, hidx⟩ := hrefresh
    exact (fields_eq_word hop hrsv hv hidx :)
  · obtain ⟨hop, hrsv, hv⟩ := hread
    exact (fields_eq_word hop hrsv hv rfl :)

/-- Settles O1, from the fields of each command's word. -/
theorem decodeInvertsEncode : Obligations.DecodeInvertsEncode := decode_encode

/-- Settles O2: a word is its four fields, and each row fixes those that are no operand. -/
theorem encodeInvertsDecode : Obligations.EncodeInvertsDecode := fun _ _ => encode_of_decode

/-! The opcode map: its rows differ in the opcode, which every row's mask keeps. -/

/-- A row that matches a word has the word's opcode. -/
theorem opField_of_row {w : Word} {r : OpcodeRow} (hr : r ∈ opcodeMap) (h : w &&& r.mask = r.pattern) :
    opField r.pattern = opField w := by
  have hmask : ∀ r ∈ opcodeMap, opField r.mask = BitVec.allOnes 4 := by decide
  calc opField r.pattern = opField (w &&& r.mask) := by rw [h]
    _ = opField w &&& opField r.mask := BitVec.extractLsb'_and
    _ = opField w := by rw [hmask r hr, BitVec.and_allOnes]

/-- No two rows have one opcode (R67). -/
theorem opcodeMap_opcodes_nodup : (opcodeMap.map fun r => opField r.pattern).Nodup := by decide

/-- R67: at most one row matches a word. -/
theorem row_unique {w : Word} {r r' : OpcodeRow} (hr : r ∈ opcodeMap) (hr' : r' ∈ opcodeMap)
    (h : w &&& r.mask = r.pattern) (h' : w &&& r'.mask = r'.pattern) : r = r' :=
  List.inj_on_of_nodup_map opcodeMap_opcodes_nodup hr hr' ((opField_of_row hr h).trans (opField_of_row hr' h').symm)

/-- R67, counted: the rows that match a word are among those with its opcode. -/
theorem countP_rows_le_one (w : Word) : opcodeMap.countP (fun r => w &&& r.mask == r.pattern) ≤ 1 := by
  calc opcodeMap.countP (fun r => w &&& r.mask == r.pattern)
      ≤ opcodeMap.countP (fun r => opField r.pattern == opField w) :=
        List.countP_mono_left fun r hr h => beq_iff_eq.2 (opField_of_row hr (beq_iff_eq.1 h))
    _ = (opcodeMap.map fun r => opField r.pattern).count (opField w) := by rw [List.count, List.countP_map]; rfl
    _ ≤ 1 := List.nodup_iff_count_le_one.1 opcodeMap_opcodes_nodup _

theorem OpcodeRow.hits_iff {r : OpcodeRow} {w : Word} : r.hits w = true ↔ w &&& r.mask = r.pattern := beq_iff_eq

/-- The decoder answers the command of the row that matches. -/
theorem decode_eq_ok_iff_row (w : Word) (i : Instr) :
    decode w = .ok i ↔ ∃ r ∈ opcodeMap, w &&& r.mask = r.pattern ∧ r.command w = i := by
  unfold decode
  cases hfind : opcodeMap.find? (·.hits w) with
  | some r =>
    have hr := List.mem_of_find?_eq_some hfind
    have hhits := OpcodeRow.hits_iff.1 (List.find?_some (p := fun r => OpcodeRow.hits r w) hfind)
    constructor
    · intro h
      exact ⟨r, hr, hhits, Except.ok.inj h⟩
    · rintro ⟨r', hr', hhits', rfl⟩
      rw [row_unique hr hr' hhits hhits']
  | none =>
    have hnone := List.find?_eq_none.1 hfind
    constructor
    · intro h
      cases h
    · rintro ⟨r, hr, hhits, -⟩
      exact absurd (OpcodeRow.hits_iff.2 hhits) (hnone r hr)

/-- The decoder refuses the words that no row matches. -/
theorem decode_refuses_iff_row (w : Word) :
    (∃ e, decode w = .error e) ↔ ∀ r ∈ opcodeMap, w &&& r.mask ≠ r.pattern := by
  simp only [ne_eq, ← OpcodeRow.hits_iff, ← List.find?_eq_none]
  unfold decode
  cases opcodeMap.find? (·.hits w) <;> simp

/-- Settles O5. -/
theorem decodeFollowsTheOpcodeMap : Obligations.DecodeFollowsTheOpcodeMap := fun w =>
  ⟨countP_rows_le_one w, decode_eq_ok_iff_row w, decode_refuses_iff_row w⟩

/-- Settles O3, by running the decoder on each word. -/
theorem exampleWordsDecode : Obligations.ExampleWordsDecode := by
  unfold Obligations.ExampleWordsDecode
  decide

end Sys2Proof
end

section
/-! SUPPORT. The illegal words (spec/30_encoding.md R68), and the one response of every word (R70, R71). -/

namespace Sys2Proof

/-! The fields of a word, read off its number. -/

theorem opField_toNat (w : Word) : (opField w).toNat = w.toNat / 2 ^ 28 := by
  have := w.isLt
  rw [opField, BitVec.extractLsb'_toNat, Nat.shiftRight_eq_div_pow]
  omega

theorem rsvField_toNat (w : Word) : (rsvField w).toNat = w.toNat / 2 ^ 17 % 2 ^ 11 := by
  rw [rsvField, BitVec.extractLsb'_toNat, Nat.shiftRight_eq_div_pow]

theorem valueField_eq_false_iff (w : Word) : valueField w = false ↔ w.toNat / 2 ^ 16 % 2 = 0 := by
  rw [valueField, BitVec.getLsbD, Nat.testBit_eq_decide_div_mod_eq, decide_eq_false_iff_not]
  omega

theorem indexField_toNat (w : Word) : (indexField w).toNat = w.toNat % 2 ^ 16 := by
  rw [indexField, BitVec.extractLsb'_toNat, Nat.shiftRight_zero]

/-- The decoder refuses the words that fit no command's fields (R65, R66). -/
theorem decode_refuses_iff_fields (w : Word) :
    (∃ e, decode w = .error e) ↔
      ¬ (opField w = 1#4 ∧ rsvField w = 0#11) ∧
      ¬ (opField w = 2#4 ∧ rsvField w = 0#11) ∧
      ¬ (opField w = 3#4 ∧ rsvField w = 0#11 ∧ valueField w = false ∧ indexField w = 0#16) ∧
      ¬ (opField w = 4#4 ∧ rsvField w = 0#11 ∧ valueField w = false ∧ indexField w = 0#16) ∧
      ¬ (opField w = 5#4 ∧ rsvField w = 0#11 ∧ valueField w = false) := by
  rw [decode_eq]
  split_ifs with hset hwrite hflush hrefresh hread
  · simp [hset]
  · simp [hwrite]
  · simp [hflush]
  · simp [hrefresh]
  · simp [hread]
  · exact ⟨fun _ => ⟨hset, hwrite, hflush, hrefresh, hread⟩, fun _ => ⟨_, rfl⟩⟩

end Sys2Proof

namespace Sys2Proof.Machine

/-- R121: a word that does not decode answers ERR_ILLEGAL. -/
theorem runWord_of_illegal {w : Word} {e : DecodeError} (h : decode w = .error e) (s : State) :
    runWord w s = .next (s.answer .errIllegal false) := by
  rw [runWord, h]
  rfl

/-- Settles O4: R68 (a) to (d) say of the fields' numbers that no row's format fits. -/
theorem illegalWordsAreExactlyThese : Obligations.IllegalWordsAreExactlyThese := by
  refine fun w => ⟨?_, fun e s h => runWord_of_illegal h s⟩
  rw [decode_refuses_iff_fields]
  simp only [← BitVec.toNat_inj, opField_toNat, rsvField_toNat, indexField_toNat, valueField_eq_false_iff,
    BitVec.toNat_ofNat]
  omega

/-- R70, R71: the response word, field by field. -/
theorem responseWord_fields (st : Status) (b : Bit) :
    (responseWord st b).extractLsb' 9 23 = 0#23 ∧ (responseWord st b).getLsbD 8 = b ∧
    (responseWord st b).extractLsb' 2 6 = 0#6 ∧ (responseWord st b).extractLsb' 0 2 = st.code := by
  cases st <;> cases b <;> decide

/-- Only a READBIT returns a bit (R70). -/
theorem commandRdata_of_not_readbit {i : Instr} (h : ∀ idx, i ≠ .readbit idx) (t : State) : commandRdata i t = false := by
  cases i with
  | readbit idx => exact absurd rfl (h idx)
  | _ => rfl

/-- Settles O8: a word is illegal, or its command fails a check, or the command has its effect; each answers once. -/
theorem everyCommandAnswersOnce : Obligations.EveryCommandAnswersOnce := by
  refine ⟨responseWord_fields, fun w s => ?_⟩
  cases hw : decode w with
  | error e => exact ⟨_, .errIllegal, false, runWord_of_illegal hw s, by simp⟩
  | ok i =>
    rw [runWord_of_decode hw]
    by_cases hok : commandStatus i s.straps = .ok
    · refine ⟨_, .ok, commandRdata i (commandEffect i s), exec_of_ok hok, by simp, ?_, ?_, by simp⟩
      · rintro idx hread -
        cases hread
        rfl
      · intro hread
        exact commandRdata_of_not_readbit (fun idx hi => hread idx (by rw [hi])) _
    · exact ⟨_, commandStatus i s.straps, false, exec_of_error hok, by simp [hok]⟩

end Sys2Proof.Machine
end

section
/-! SUPPORT. The assembler: the words of its lines, and its pseudo-instructions (spec/30_encoding.md R73, R74). -/

namespace Sys2Proof

theorem fields_or (o o' : BitVec 4) (r r' : BitVec 11) (v v' : BitVec 1) (x x' : BitVec 16) :
    (o ++ r ++ v ++ x) ||| (o' ++ r' ++ v' ++ x') = (o ||| o') ++ (r ||| r') ++ (v ||| v') ++ (x ||| x') := by
  rw [BitVec.or_append, BitVec.or_append, BitVec.or_append]

/-- R63: the field IDX is the low end of a word. -/
theorem indexBits {idx : Nat} (h : idx ≤ 65535) :
    0#4 ++ 0#11 ++ 0#1 ++ BitVec.ofNat 16 idx = BitVec.ofNat 32 idx := by
  apply BitVec.eq_of_toNat_eq
  rw [BitVec.toNat_append, BitVec.toNat_ofNat, BitVec.toNat_ofNat, Nat.mod_eq_of_lt (by omega),
    Nat.mod_eq_of_lt (by omega)]
  exact Nat.zero_or idx

/-- R64: the field V is bit 16 of a word. -/
theorem valueBits {v : Nat} (h : v ≤ 1) :
    0#4 ++ 0#11 ++ BitVec.ofBool (decide (v = 1)) ++ 0#16 = BitVec.ofNat 32 v <<< 16 := by
  interval_cases v <;> rfl

/-- A word with an index operand is the bitwise or of its parts (R63, R65). -/
theorem fields_eq_or (o : BitVec 4) (v : Bit) {idx : Nat} (h : idx ≤ 65535) :
    o ++ 0#11 ++ BitVec.ofBool v ++ BitVec.ofNat 16 idx =
      (o ++ 0#11 ++ BitVec.ofBool v ++ 0#16) ||| BitVec.ofNat 32 idx := by
  rw [← indexBits h, fields_or]
  simp only [BitVec.or_zero, BitVec.zero_or]

/-- So is a word with both operands (R64, R65). -/
theorem operandFields_eq_or (o : BitVec 4) {idx v : Nat} (hidx : idx ≤ 65535) (hv : v ≤ 1) :
    o ++ 0#11 ++ BitVec.ofBool (decide (v = 1)) ++ BitVec.ofNat 16 idx =
      (o ++ 0#11 ++ 0#1 ++ 0#16) ||| (BitVec.ofNat 32 v <<< 16) ||| BitVec.ofNat 32 idx := by
  rw [fields_eq_or _ _ hidx, ← valueBits hv, fields_or]
  simp only [BitVec.or_zero, BitVec.zero_or]

end Sys2Proof

namespace Sys2Proof.Machine

theorem asmIndex_of_le {idx : Nat} (h : idx ≤ 65535) : asmIndex idx = some (BitVec.ofNat 16 idx) := if_pos h

theorem asmIndex_of_lt {idx : Nat} (h : 65535 < idx) : asmIndex idx = none := if_neg (Nat.not_le.2 h)

theorem asmValue_of_le {v : Nat} (h : v ≤ 1) : asmValue v = some (decide (v = 1)) := by
  interval_cases v <;> rfl

theorem asmValue_of_lt {v : Nat} (h : 1 < v) : asmValue v = none := by
  obtain ⟨k, rfl⟩ := Nat.exists_eq_add_of_le' h
  rfl

/-- R73: operands in their ranges give the command they name. -/
theorem command_of_operands {idx v : Nat} (hidx : idx ≤ 65535) (hv : v ≤ 1) :
    AsmLine.command (.set idx v) = some (.set (BitVec.ofNat 16 idx) (decide (v = 1))) ∧
    AsmLine.command (.write idx v) = some (.write (BitVec.ofNat 16 idx) (decide (v = 1))) := by
  simp [AsmLine.command, asmIndex_of_le hidx, asmValue_of_le hv]

/-- R73: an operand outside its range gives no command. -/
theorem command_of_bad_operand {idx v : Nat} (h : 65535 < idx ∨ 1 < v) :
    AsmLine.command (.set idx v) = none ∧ AsmLine.command (.write idx v) = none := by
  obtain hidx | hv := h
  · simp [AsmLine.command, asmIndex_of_lt hidx]
  · simp [AsmLine.command, asmValue_of_lt hv]

/-- The word of a line is the word of its command. -/
theorem assemble_of_command {line : AsmLine} {i : Instr} {w : Word} (h : line.command = some i) (hw : encode i = w) :
    line.assemble = some w := by
  rw [AsmLine.assemble, h, ← hw]
  rfl

/-- A line without a command is refused. -/
theorem assemble_of_refused {line : AsmLine} (h : line.command = none) : line.assemble = none := by
  rw [AsmLine.assemble, h]
  rfl

/-- Settles O6: a line's operands are in their ranges and its word is made of their fields, or one is not and there is no
word. -/
theorem assemblerWords : Obligations.AssemblerWords := by
  refine ⟨fun idx v hidx hv => ?_, rfl, rfl, fun idx hidx => ?_, fun idx v h => ?_, fun idx h => ?_⟩
  · obtain ⟨hset, hwrite⟩ := command_of_operands hidx hv
    exact ⟨assemble_of_command hset (operandFields_eq_or 1#4 hidx hv),
      assemble_of_command hwrite (operandFields_eq_or 2#4 hidx hv)⟩
  · have hread : AsmLine.command (.readbit idx) = some (.readbit (BitVec.ofNat 16 idx)) := by
      rw [AsmLine.command, asmIndex_of_le hidx, Option.map_some]
    exact assemble_of_command hread (fields_eq_or 5#4 false hidx)
  · obtain ⟨hset, hwrite⟩ := command_of_bad_operand h
    exact ⟨assemble_of_refused hset, assemble_of_refused hwrite⟩
  · exact assemble_of_refused (by rw [AsmLine.command, asmIndex_of_lt h, Option.map_none])

/-- Settles O7: a line stands for one command, whose word decodes to it. -/
theorem pseudoInstructionsExpand : Obligations.PseudoInstructionsExpand := by
  refine ⟨fun idx => ?_, rfl, rfl, fun line w h => ?_⟩
  · have hclr : AsmLine.command (.clr idx) = AsmLine.command (.set idx 0) := by
      simp only [AsmLine.command]
      cases asmIndex idx <;> rfl
    have hsetb : AsmLine.command (.setb idx) = AsmLine.command (.set idx 1) := by
      simp only [AsmLine.command]
      cases asmIndex idx <;> rfl
    exact ⟨congrArg (Option.map encode) hclr, congrArg (Option.map encode) hsetb⟩
  · obtain ⟨i, hi, rfl⟩ := Option.map_eq_some_iff.1 h
    exact ⟨i, hi, decode_encode i⟩

end Sys2Proof.Machine
end

section
/-! SUPPORT. The commands of the output path (spec/40_output_path.md R80 to R82): their words, their errors, and what
each leaves where it succeeds. -/

namespace Sys2Proof

/-! The words of each command, from the rows of the opcode map (spec/30_encoding.md R66). -/

theorem decode_eq_set_iff (w : Word) (idx : Index) (v : Bit) :
    decode w = .ok (.set idx v) ↔
      w &&& 0xFFFE0000#32 = 0x10000000#32 ∧ w.extractLsb' 0 16 = idx ∧ w.getLsbD 16 = v := by
  simp [decode_eq_ok_iff_row, opcodeMap, indexField, valueField]

theorem decode_eq_write_iff (w : Word) (idx : Index) (v : Bit) :
    decode w = .ok (.write idx v) ↔
      w &&& 0xFFFE0000#32 = 0x20000000#32 ∧ w.extractLsb' 0 16 = idx ∧ w.getLsbD 16 = v := by
  simp [decode_eq_ok_iff_row, opcodeMap, indexField, valueField]

theorem decode_eq_flush_iff (w : Word) : decode w = .ok .flush ↔ w = 0x30000000#32 := by
  have hmask : w &&& 0xFFFFFFFF#32 = w := BitVec.and_allOnes
  simp [decode_eq_ok_iff_row, opcodeMap, hmask]

end Sys2Proof

namespace Sys2Proof.Machine

/-- R122: a command that the mode does not accept answers ERR_MODE and changes nothing else. -/
theorem exec_of_mode_rejected {i : Instr} {s : State} (h : modeTable i s.straps.mode = false) :
    exec i s = .next (s.answer .errMode false) := by
  have hstatus : commandStatus i s.straps = .errMode := if_pos h
  have herror : commandStatus i s.straps ≠ .ok := by simp [hstatus]
  rw [exec_of_error herror, hstatus]

/-- R123: a command that the mode accepts answers ERR_RANGE for an index outside the chain, and changes nothing else. -/
theorem exec_of_index_out_of_range {i : Instr} {s : State} (hm : modeTable i s.straps.mode = true) {idx : Index}
    (hidx : Instr.index? i = some idx) (h : 8 * s.straps.chainLength ≤ idx.toNat) :
    exec i s = .next (s.answer .errRange false) := by
  have hstatus : commandStatus i s.straps = .errRange := by simp [commandStatus, hm, hidx, h]
  have herror : commandStatus i s.straps ≠ .ok := by simp [hstatus]
  rw [exec_of_error herror, hstatus]

/-- R80: the bit staged reads as the value staged, and every other bit as before. -/
theorem State.bit_setIndexBit {s : State} (h : s.buf.wf) (p : Nat) (v : Bit) (i k : Nat) (hk : k < 8) :
    (s.setIndexBit p v).buf.bit i k = if i = p / 8 ∧ k = p % 8 then v else s.buf.bit i k :=
  Memory.bit_withBit h _ _ v (Nat.mod_lt p (by decide)) i k hk

/-- R80: every byte but that of the bit staged is as before. -/
theorem State.read_setIndexBit {s : State} (h : s.buf.wf) (p : Nat) (v : Bit) {a : Nat} (ha : a ≠ p / 8) :
    (s.setIndexBit p v).buf.read a = s.buf.read a :=
  Memory.read_withBit_of_ne h _ v ha

/-- R84: on a chain of one byte or more a flush leaves DATA at the last bit sent. -/
theorem State.flush_of_pos {s : State} (h : 1 ≤ s.straps.chainLength) :
    s.flush =
      { s with
        dir := if s.straps.mode = .dual then { s.dir with latch := .output } else s.dir
        lvl := { data := s.buf.bit (s.straps.chainLength - 1) 0, clk := false, latch := false }
        trace := s.trace ++ flushEvents s.straps s.buf } := by
  rw [State.flush_eq, if_neg (Nat.one_le_iff_ne_zero.1 h)]

/-- R84: a flush leaves LATCH an output, in the modes that accept one. -/
theorem State.Inv.flush_latch_out {s : State} (h : s.Inv) (hm : s.straps.mode ≠ .input) :
    s.flush.dir.latch = .output := by
  have hlatch := h.latch_dir
  rw [State.flush_dir]
  cases hmode : s.straps.mode with
  | input => exact absurd hmode hm
  | output =>
    rw [hmode] at hlatch
    exact hlatch
  | dual => rfl

/-- Settles O19, from the row of SET and the three outcomes of its checks. -/
theorem setStagesOneBit : Obligations.SetStagesOneBit := by
  refine fun s idx v => ⟨fun w => decode_eq_set_iff w idx v, fun hm => ?_, fun hm hr => ?_, fun hm hr hbuf => ?_⟩
  · exact exec_of_mode_rejected (by simpa [not_acceptsOutput] using hm)
  · exact exec_of_index_out_of_range (by simpa [acceptsOutput_iff] using hm) rfl hr
  · exact ⟨_, exec_set_ok v hm hr, State.bit_setIndexBit hbuf idx.toNat v,
      fun a => State.read_setIndexBit hbuf idx.toNat v⟩

/-- Settles O20, as O19, with a flush of the buffer that has the bit. -/
theorem writeStagesThenFlushes : Obligations.WriteStagesThenFlushes := by
  refine fun s idx v => ⟨fun w => decode_eq_write_iff w idx v, fun hm => ?_, fun hm hr => ?_, fun hm hr hbuf => ?_⟩
  · exact exec_of_mode_rejected (by simpa [not_acceptsOutput] using hm)
  · exact exec_of_index_out_of_range (by simpa [acceptsOutput_iff] using hm) rfl hr
  · have hflush := State.flush_of_pos (s := s.setIndexBit idx.toNat v) (by rw [State.setIndexBit_straps]; omega)
    refine ⟨(s.setIndexBit idx.toNat v).buf, ?_, State.bit_setIndexBit hbuf idx.toNat v,
      fun a => State.read_setIndexBit hbuf idx.toNat v, flushEvents_length _ _⟩
    rw [exec_write_ok v hm hr, hflush]
    rfl

/-- Settles O21, from the two outcomes of the mode check and what a flush leaves. -/
theorem flushSendsTheBuffer : Obligations.FlushSendsTheBuffer := by
  refine fun s => ⟨decode_eq_flush_iff, fun hm => ?_, fun hm hn => ⟨?_, fun h t ht => ?_⟩⟩
  · exact exec_of_mode_rejected (by simpa [not_acceptsOutput] using hm)
  · rw [exec_flush_ok hm, State.flush_of_pos hn]
    rfl
  · obtain rfl := Host.Outcome.next.inj ((exec_flush_ok hm).symm.trans ht)
    exact h.flush_latch_out hm

end Sys2Proof.Machine
end

section
/-! SUPPORT. The bits of a flush read back as bytes (spec/40_output_path.md R86 (b)), how many events a command emits
(spec/70_reset_and_hazards.md R164), and which commands write the counter (spec/10_state.md R24). -/

namespace Sys2Proof.Machine

/-- Reading one more bit moves the bits read up by one place. -/
theorem getLsbD_msbFirst_concat (bits : List Bit) (x : Bit) {j : Nat} (hj : j < 8) :
    (msbFirst (bits ++ [x])).getLsbD j = if j = 0 then x else (msbFirst bits).getLsbD (j - 1) := by
  rw [msbFirst, List.foldl_concat, ← msbFirst]
  cases j with
  | zero => simp
  | succ j => simp [hj, -BitVec.getLsbD_eq_getElem]

/-- The bit at place `j` of a byte is the j-th last of the bits it is read from. -/
theorem getLsbD_msbFirst (bits : List Bit) {j : Nat} (hj : j < 8) :
    (msbFirst bits).getLsbD j = bits.reverse.getD j false := by
  induction bits using List.reverseRecOn generalizing j with
  | nil => simp [msbFirst]
  | append_singleton bits x ih =>
    rw [getLsbD_msbFirst_concat bits x hj]
    cases j with
    | zero => simp
    | succ j => simpa using ih (by omega)

/-- R13: a byte's bits from the seventh down, read most-significant bit first, are the byte. -/
theorem msbFirst_bits (b : Byte) : msbFirst ((List.range 8).map fun j => b.getLsbD (7 - j)) = b :=
  BitVec.eq_of_getLsbD_eq fun j hj => by
    rw [getLsbD_msbFirst _ hj]
    interval_cases j <;> rfl

/-- R42: the i-th group of eight of the buffer's bits in serial order is its i-th byte from the seventh bit down. -/
theorem serialGroup_eq (buf : Memory) {n i : Nat} (hi : i < n) :
    (((List.range (8 * n)).map (serialOut buf)).drop (8 * i)).take 8 =
      (List.range 8).map fun j => (buf.read i).getLsbD (7 - j) := by
  apply List.ext_getElem
  · simp
    omega
  · intro j _ hj
    have hj8 : j < 8 := by simpa using hj
    have hbyte : (8 * i + j) / 8 = i := by omega
    have hbit : (8 * i + j) % 8 = j := by omega
    simp [serialOut, Memory.bit, hbyte, hbit]

/-- R86 (b): so the group read back is the byte. -/
theorem msbFirst_serialGroup (buf : Memory) {n i : Nat} (hi : i < n) :
    msbFirst ((((List.range (8 * n)).map (serialOut buf)).drop (8 * i)).take 8) = buf.read i := by
  rw [serialGroup_eq buf hi, msbFirst_bits]

/-- Settles O27, from the bits of a flush in their serial order. -/
theorem flushRoundTrip : Obligations.FlushRoundTrip := by
  refine fun s hm => ⟨_, _, exec_flush_ok hm, s.flush_trace, ?_, fun i hi => ?_⟩
  · simp [dataValues_flushEvents]
  · rw [dataValues_flushEvents]
    exact msbFirst_serialGroup s.buf hi

/-- Settles O30: a command that fails a check appends no event, and one whose checks pass those of its effect. -/
theorem eventCountTable : Obligations.EventCountTable := by
  intro i s
  by_cases hok : commandStatus i s.straps = .ok
  · refine ⟨_, commandEvents i s, exec_of_ok hok, by simp, fun h => ?_, fun _ => ?_⟩
    · exact absurd (by simp) (h (commandRdata i (commandEffect i s)))
    · cases i with
      | set idx v => rfl
      | write idx v => exact flushEvents_length _ _
      | flush => exact flushEvents_length _ _
      | refresh => exact refreshEvents_length _ _
      | readbit idx =>
        refine ⟨fun hc => ?_, fun hc => ?_⟩
        · rw [commandEvents, if_pos hc]
          exact refreshEvents_length _ _
        · rw [commandEvents, if_neg hc]
          rfl
  · refine ⟨_, [], exec_of_error hok, by simp, fun _ => rfl, fun ⟨b, hb⟩ => ?_⟩
    exact absurd (by simpa using hb) (responseWord_ne_ok hok b)

/-- R24: only the effect of a READBIT writes the counter. -/
theorem commandEffect_cnt {i : Instr} (h : Instr.isRead i = false) (s : State) : (commandEffect i s).cnt = s.cnt := by
  cases i with
  | readbit idx => cases h
  | _ => simp [commandEffect]

/-- Settles O38: a command that fails a check writes nothing but its response, and in MODE = OUTPUT a READBIT does. -/
theorem onlyReadbitChangesTheCounter : Obligations.OnlyReadbitChangesTheCounter := by
  intro i s h
  by_cases hok : commandStatus i s.straps = .ok
  · have hread : Instr.isRead i = false := by
      cases i with
      | readbit idx => exact h.resolve_right (accepted_of_status_ok hok).1
      | _ => rfl
    exact ⟨_, exec_of_ok hok, commandEffect_cnt hread s⟩
  · exact ⟨_, exec_of_error hok, rfl⟩

end Sys2Proof.Machine
end

section
/-! SUPPORT. The laws of the output path (spec/40_output_path.md R86; spec/70_reset_and_hazards.md R159): runs of SETs,
in any order, and what a FLUSH, a WRITE or a READBIT makes of the bits they staged. -/

namespace Sys2Proof.Machine

/-- Bits at two places of the buffer may be written in either order. -/
theorem Memory.withBit_comm {m : Memory} (h : m.wf) {i k i' k' : Nat} (hk : k < 8) (hk' : k' < 8)
    (hne : ¬ (i = i' ∧ k = k')) (v v' : Bit) :
    (m.withBit i k v).withBit i' k' v' = (m.withBit i' k' v').withBit i k v := by
  have hwf := Memory.wf_withBit h i k v
  have hwf' := Memory.wf_withBit h i' k' v'
  refine Memory.ext_bit (Memory.wf_withBit hwf i' k' v') (Memory.wf_withBit hwf' i k v) fun a j hj => ?_
  rw [Memory.bit_withBit hwf i' k' v' hk' a j hj, Memory.bit_withBit h i k v hk a j hj,
    Memory.bit_withBit hwf' i k v hk a j hj, Memory.bit_withBit h i' k' v' hk' a j hj]
  by_cases hplace : a = i ∧ j = k
  · obtain ⟨rfl, rfl⟩ := hplace
    simp only [hne, if_false]
  · simp only [hplace, if_false]

/-- A bit written again takes the last value. -/
theorem Memory.withBit_withBit {m : Memory} (h : m.wf) {k : Nat} (hk : k < 8) (i : Nat) (v w : Bit) :
    (m.withBit i k v).withBit i k w = m.withBit i k w := by
  have hwf := Memory.wf_withBit h i k v
  refine Memory.ext_bit (Memory.wf_withBit hwf i k w) (Memory.wf_withBit h i k w) fun a j hj => ?_
  rw [Memory.bit_withBit hwf i k w hk a j hj, Memory.bit_withBit h i k v hk a j hj,
    Memory.bit_withBit h i k w hk a j hj]
  split <;> rfl

/-- R14: an index names a bit of a byte. -/
theorem bitOf_lt (p : Nat) : bitOf p < 8 := Nat.mod_lt p (by decide)

/-- R14: two indices name two places of the buffer. -/
theorem places_ne {p q : Nat} (h : p ≠ q) : ¬ (byteOf p = byteOf q ∧ bitOf p = bitOf q) := by
  unfold byteOf bitOf
  omega

/-- Bits at two indices may be staged in either order. -/
theorem State.setIndexBit_comm {s : State} (h : s.buf.wf) {p q : Nat} (hne : p ≠ q) (v w : Bit) :
    (s.setIndexBit p v).setIndexBit q w = (s.setIndexBit q w).setIndexBit p v := by
  simp only [State.setIndexBit, Memory.withBit_comm h (bitOf_lt p) (bitOf_lt q) (places_ne hne)]

/-- A bit staged again at one index takes the last value. -/
theorem State.setIndexBit_setIndexBit {s : State} (h : s.buf.wf) (p : Nat) (v w : Bit) :
    (s.setIndexBit p v).setIndexBit p w = s.setIndexBit p w := by
  simp only [State.setIndexBit, Memory.withBit_withBit h (bitOf_lt p)]

/-- The bit staged at an index reads back at that index. -/
theorem State.indexBit_setIndexBit {s : State} (h : s.buf.wf) (p : Nat) (v : Bit) :
    (s.setIndexBit p v).indexBit p = v :=
  (State.bit_setIndexBit h p v (byteOf p) (bitOf p) (bitOf_lt p)).trans (if_pos ⟨rfl, rfl⟩)

/-- A flush neither reads nor changes the responses given. -/
theorem State.flush_answer (s : State) (st : Status) (b : Bit) : (s.answer st b).flush = s.flush.answer st b := by
  rw [State.flush_eq, State.flush_eq]
  rfl

/-- The next command of a sequence goes on from the state that the one before it left. -/
theorem execAll_cons {i : Instr} {s t : State} (h : exec i s = .next t) (is : List Instr) :
    execAll (i :: is) s = execAll is t := by
  rw [execAll, h]

/-- Two commands, one after the other. -/
theorem execAll_pair {i j : Instr} {s t u : State} (hi : exec i s = .next t) (hj : exec j t = .next u) :
    execAll [i, j] s = .next u := by
  rw [execAll_cons hi, execAll_cons hj, execAll]

/-- Settles O31: both stage the bit and flush, and a flush reads no response. -/
theorem writeIsSetThenFlush : Obligations.WriteIsSetThenFlush := by
  intro s idx v hm hr
  refine ⟨_, _, exec_write_ok v hm hr, execAll_pair (exec_set_ok v hm hr) (exec_flush_ok hm), ?_, ?_⟩
  · rw [State.answer_responses, State.flush_responses]
    rfl
  · have hresponses : (s.setIndexBit idx.toNat v).flush.responses ++ [responseWord .ok false] ++
        [responseWord .ok false] = s.responses ++ [0x0#32, 0x0#32] := by
      rw [State.flush_responses]
      exact List.append_assoc _ _ _
    rw [State.flush_answer, ← hresponses]
    rfl

/-- A SET touches the buffer and the responses only, whether it succeeds or not, and keeps the canonical form of the
buffer (R80, R125). -/
theorem exec_set_frame (idx : Index) (v : Bit) (s : State) :
    ∃ b rs, exec (.set idx v) s = .next { s with buf := b, responses := rs } ∧ (s.buf.wf → b.wf) := by
  by_cases hok : commandStatus (.set idx v) s.straps = .ok
  · exact ⟨_, _, exec_of_ok hok, fun h => Memory.wf_withBit h _ _ v⟩
  · exact ⟨_, _, exec_of_error hok, id⟩

/-- A run of SETs touches no more. -/
theorem execAll_sets_frame {is : List Instr} (h : ∀ i ∈ is, ∃ idx v, i = .set idx v) (s : State) :
    ∃ b rs, execAll is s = .next { s with buf := b, responses := rs } := by
  induction is generalizing s with
  | nil => exact ⟨s.buf, s.responses, rfl⟩
  | cons i is ih =>
    obtain ⟨idx, v, rfl⟩ := h i List.mem_cons_self
    obtain ⟨b, rs, hset, -⟩ := exec_set_frame idx v s
    rw [execAll_cons hset]
    exact ih (fun j hj => h j (List.mem_cons_of_mem _ hj)) _

/-- Settles O32: SETs leave the trace and the straps, and the events of the flush that follows latch once. -/
theorem setsStayOffTheBus : Obligations.SetsStayOffTheBus := by
  intro is s hm his
  obtain ⟨b, rs, hsets⟩ := execAll_sets_frame his s
  refine ⟨_, hsets, rfl, ?_, fun idx v hr => ?_⟩
  · exact ⟨_, _, exec_flush_ok hm, State.flush_trace _, (flushEvents_pulses _ _).1⟩
  · exact ⟨_, _, exec_write_ok v hm hr, State.flush_trace _, (flushEvents_pulses _ _).1⟩

/-- Two SETs to different indices in range may run in either order, where the mode rejects them too. -/
theorem execAll_set_comm {s : State} (hbuf : s.buf.wf) {p q : Index} (hp : p.toNat < 8 * s.straps.chainLength)
    (hq : q.toNat < 8 * s.straps.chainLength) (hne : p ≠ q) (v w : Bit) :
    execAll [.set p v, .set q w] s = execAll [.set q w, .set p v] s := by
  by_cases hm : s.straps.mode = .input
  · have hreject (idx : Index) (v : Bit) : modeTable (.set idx v) s.straps.mode = false := by simp [hm, acceptsOutput]
    calc execAll [.set p v, .set q w] s = .next ((s.answer .errMode false).answer .errMode false) :=
          execAll_pair (exec_of_mode_rejected (hreject p v)) (exec_of_mode_rejected (hreject q w))
      _ = execAll [.set q w, .set p v] s :=
          (execAll_pair (exec_of_mode_rejected (hreject q w)) (exec_of_mode_rejected (hreject p v))).symm
  · have hswap := State.setIndexBit_comm hbuf (fun h => hne (BitVec.eq_of_toNat_eq h)) v w
    calc execAll [.set p v, .set q w] s
        = .next ((((s.setIndexBit p.toNat v).setIndexBit q.toNat w).answer .ok false).answer .ok false) :=
          execAll_pair (exec_set_ok v hm hp) (exec_set_ok w hm hq)
      _ = .next ((((s.setIndexBit q.toNat w).setIndexBit p.toNat v).answer .ok false).answer .ok false) := by rw [hswap]
      _ = execAll [.set q w, .set p v] s := (execAll_pair (exec_set_ok w hm hq) (exec_set_ok v hm hp)).symm

/-- A list of SETs to indices in range. -/
def SetsInRange (is : List Instr) (c : Straps) : Prop :=
  ∀ i ∈ is, ∃ idx v, i = .set idx v ∧ idx.toNat < 8 * c.chainLength

/-- R86 (e): SETs to distinct indices in range leave the same state in whatever order they run. -/
theorem execAll_sets_perm {is js : List Instr} (hperm : is.Perm js) {s : State} (hbuf : s.buf.wf)
    (hin : SetsInRange is s.straps) (hnodup : (is.map Instr.index?).Nodup) : execAll is s = execAll js s := by
  induction hperm generalizing s with
  | nil => rfl
  | cons i _ ih =>
    obtain ⟨idx, v, rfl, -⟩ := hin i List.mem_cons_self
    obtain ⟨b, rs, hset, hwf⟩ := exec_set_frame idx v s
    rw [execAll_cons hset, execAll_cons hset]
    exact ih (hwf hbuf) (fun j hj => hin j (List.mem_cons_of_mem _ hj)) hnodup.of_cons
  | swap i j l =>
    obtain ⟨p, v, rfl, hp⟩ := hin j (by simp)
    obtain ⟨q, w, rfl, hq⟩ := hin i (by simp)
    have hne : p ≠ q := fun h => by simp [Instr.index?, h] at hnodup
    have hswap := execAll_set_comm hbuf hp hq hne v w
    exact (execAll_append [_, _] l s).trans (hswap ▸ (execAll_append [_, _] l s).symm)
  | trans h1 _ ih1 ih2 =>
    rw [ih1 hbuf hin hnodup]
    exact ih2 hbuf (fun i hi => hin i (h1.mem_iff.2 hi)) ((h1.map _).nodup_iff.1 hnodup)

/-- Settles O33: the SETs leave the same state in both orders, and the FLUSH goes on from it. -/
theorem setOrderDoesNotMatter : Obligations.SetOrderDoesNotMatter := by
  intro is js s hbuf hperm hin hnodup
  obtain ⟨t, ht⟩ := execAll_next (is ++ [.flush]) s
  refine ⟨t, ht, ?_⟩
  rw [execAll_append, ← execAll_sets_perm hperm hbuf hin hnodup, ← execAll_append, ht]

/-- Settles O34: the second SET stages the same bit of the buffer again. -/
theorem lastSetWins : Obligations.LastSetWins := by
  intro s idx v w hbuf hm hr
  have hboth : execAll [.set idx v, .set idx w] s =
      .next ((((s.setIndexBit idx.toNat v).setIndexBit idx.toNat w).answer .ok false).answer .ok false) :=
    execAll_pair (exec_set_ok v hm hr) (exec_set_ok w hm hr)
  rw [State.setIndexBit_setIndexBit hbuf] at hboth
  exact ⟨_, _, hboth, exec_set_ok w hm hr, rfl⟩

/-- R70, R71: the response OK carries its bit in bit 8. -/
theorem responseWord_ok (b : Bit) : responseWord .ok b = if b = true then 0x100#32 else 0x0#32 := by
  cases b <;> rfl

/-- R106, R107 (d): with the counter not run down a READBIT counts down and returns a bit of the buffer as it stands. -/
theorem exec_readbit_of_ne {s : State} {idx : Index} (hm : s.straps.mode ≠ .output)
    (hr : idx.toNat < 8 * s.straps.chainLength) (hc : s.cnt ≠ 0#16) :
    exec (.readbit idx) s =
      .next (({ s with cnt := s.cnt - 1#16 } : State).answer .ok (s.indexBit idx.toNat)) := by
  rw [exec_readbit_ok hm hr, State.countRead_of_ne hc]
  rfl

/-- Settles O35: the READBIT returns a bit of the buffer in which the SET has staged it. -/
theorem stagedBitIsRead : Obligations.StagedBitIsRead := by
  intro s idx v hbuf hm hc hr
  have hout : s.straps.mode ≠ .input := by simp [hm]
  have hin : s.straps.mode ≠ .output := by simp [hm]
  have hread := exec_readbit_of_ne (s := (s.setIndexBit idx.toNat v).answer .ok false) hin hr hc
  have hbit : ((s.setIndexBit idx.toNat v).answer .ok false).indexBit idx.toNat = v :=
    State.indexBit_setIndexBit hbuf idx.toNat v
  rw [hbit] at hread
  refine ⟨_, execAll_pair (exec_set_ok v hout hr) hread, rfl, ?_⟩
  rw [← responseWord_ok]
  exact List.append_assoc s.responses _ _

end Sys2Proof.Machine
end

section
/-! SUPPORT. The output guarantee (spec/60_exceptions.md R137): a flush fills the shift stage of the reference chain
with the buffer and then latches it. -/

namespace Sys2Proof.Machine

/-- R85: a flush's events before its LATCH pulse. -/
def flushShifts (c : Straps) (buf : Memory) : List Event :=
  (if c.mode = .dual then [.dir .latch .output] else []) ++
  [.drv .clk false] ++
  (List.range (8 * c.chainLength)).flatMap (fun t => outPeriod (serialOut buf t))

theorem flushEvents_eq_shifts (c : Straps) (buf : Memory) :
    flushEvents c buf = flushShifts c buf ++ [.drv .latch true, .drv .latch false] := rfl

/-- The one rising drive of LATCH in a flush is that of the pulse (R54). -/
theorem latch_not_mem_flushShifts (c : Straps) (buf : Memory) : .drv .latch true ∉ flushShifts c buf := by
  have hcount := (flushEvents_pulses c buf).1
  rw [flushEvents_eq_shifts, List.count_append] at hcount
  exact List.count_eq_zero.1 (by simpa using hcount)

/-- `n` bit periods shift `n` bits into the chain, each before the bits already there, and as many out of it (R136). -/
theorem Chain.run_outPeriods (f : Nat → Bit) {l : Lines} (hc : l.lvl.clk = false) (c : Chain) (n : Nat)
    (hn : n ≤ c.shift.length) :
    (Chain.run l c ((List.range n).flatMap fun t => outPeriod (f t))).shift =
      ((List.range n).map f).reverse ++ c.shift.take (c.shift.length - n) := by
  induction n with
  | zero => simp [Chain.run]
  | succ n ih =>
    have hclk : (l.afterAll ((List.range n).flatMap fun t => outPeriod (f t))).lvl.clk = false := by
      rw [Lines.afterAll_outPeriods f n l hc]; exact hc
    have hdrop : (c.shift.take (c.shift.length - n)).dropLast = c.shift.take (c.shift.length - (n + 1)) := by
      rw [List.dropLast_eq_take, List.take_take, List.length_take]
      congr 1; omega
    have hne : c.shift.take (c.shift.length - n) ≠ [] := by
      rw [← List.length_pos_iff, List.length_take]; omega
    rw [List.range_succ, List.flatMap_append, List.flatMap_singleton, Chain.run_append, Chain.run_outPeriod _ _ _ hclk,
      ih (by omega), List.dropLast_append_of_ne_nil hne, hdrop]
    simp

/-- R137: after a flush's bit periods the shift stage of the chain holds the buffer, the first bit sent last. -/
theorem shift_flushShifts {c : Straps} {ch : Chain} (h : ch.shift.length = 8 * c.chainLength) (buf : Memory)
    (l : Lines) :
    (Chain.run l ch (flushShifts c buf)).shift = ((List.range (8 * c.chainLength)).map (serialOut buf)).reverse := by
  have hperiods (l : Lines) := Chain.run_outPeriods (serialOut buf) (l := l.after (.drv .clk false)) rfl ch _ h.ge
  rw [h, Nat.sub_self, List.take_zero, List.append_nil] at hperiods
  rw [flushShifts]
  split
  · exact hperiods (l.after (.dir .latch .output))
  · exact hperiods l

/-- R42: the place of `buf[N-1-j][b]` among the bits sent, counted from the last. -/
theorem serialOut_reverse_getElem? (buf : Memory) {n j b : Nat} (hj : j < n) (hb : b < 8) :
    (((List.range (8 * n)).map (serialOut buf)).reverse)[8 * j + b]? = some (buf.bit (n - 1 - j) b) := by
  have hbyte : (8 * n - 1 - (8 * j + b)) / 8 = n - 1 - j := by omega
  have hbit : 7 - (8 * n - 1 - (8 * j + b)) % 8 = b := by omega
  rw [List.getElem?_reverse (by simp; omega), List.length_map, List.length_range, List.getElem?_map,
    List.getElem?_range (by omega), Option.map_some, serialOut, hbyte, hbit]

/-- Before the LATCH pulse of a flush LATCH is low and driven, in the modes that accept one (R84). -/
theorem State.Inv.latch_before_pulse {s : State} (h : s.Inv) (hm : s.straps.mode ≠ .input) (buf : Memory) :
    (s.lines.afterAll (flushShifts s.straps buf)).lvl.latch = false ∧
    (s.lines.afterAll (flushShifts s.straps buf)).dir.latch = .output := by
  have hlatch := h.latch_dir
  rw [flushShifts, Lines.afterAll_append, Lines.afterAll_append, Lines.afterAll_outPeriods _ _ _ rfl]
  cases hmode : s.straps.mode with
  | input => exact absurd hmode hm
  | output =>
    rw [hmode] at hlatch
    exact ⟨h.latch_low, hlatch⟩
  | dual => exact ⟨h.latch_low, rfl⟩

/-- R136: a LATCH pulse loads the output stage from the shift stage. -/
theorem Chain.out_latch_pulse {l : Lines} (hlvl : l.lvl.latch = false) (hdir : l.dir.latch = .output) (c : Chain) :
    (Chain.run l c [.drv .latch true, .drv .latch false]).out = c.shift := by
  simp [Chain.run, Chain.react, hlvl, hdir]

/-- R137: from lines at rest, a flush of `buf` shows it on a chain of its length. -/
theorem State.Inv.out_flushEvents {s : State} (h : s.Inv) (hm : s.straps.mode ≠ .input) (buf : Memory) {c : Chain}
    (hc : c.shift.length = 8 * s.straps.chainLength) :
    (Chain.run s.lines c (flushEvents s.straps buf)).out =
      ((List.range (8 * s.straps.chainLength)).map (serialOut buf)).reverse := by
  obtain ⟨hlvl, hdir⟩ := h.latch_before_pulse hm buf
  rw [flushEvents_eq_shifts, Chain.run_append, Chain.out_latch_pulse hlvl hdir, shift_flushShifts hc]

/-- A FLUSH, or a WRITE in range, answers OK and appends the events of a flush of the buffer it leaves. -/
theorem exec_flush_or_write {s : State} (hm : s.straps.mode ≠ .input) {i : Instr}
    (hi : i = .flush ∨ ∃ idx v, i = .write idx v ∧ idx.toNat < 8 * s.straps.chainLength) :
    ∃ t, exec i s = .next t ∧ t.responses = s.responses ++ [0x0#32] ∧
      t.trace = s.trace ++ flushEvents s.straps t.buf := by
  obtain rfl | ⟨idx, v, rfl, hr⟩ := hi
  · exact ⟨_, exec_flush_ok hm, by rw [State.answer_responses, State.flush_responses]; rfl, by simp⟩
  · exact ⟨_, exec_write_ok v hm hr, by rw [State.answer_responses, State.flush_responses]; rfl, by simp⟩

/-- Settles O46: the flush's bit periods move the buffer into the shift stage without touching the outputs, and its
LATCH pulse, the last two events, loads them. -/
theorem flushShowsOnTheChain : Obligations.FlushShowsOnTheChain := by
  intro s i c h hm hi hshift _
  obtain ⟨t, ht, hresp, htrace⟩ := exec_flush_or_write hm hi
  refine ⟨t, flushShifts s.straps t.buf, ht, hresp, htrace, fun k _ => ?_, ?_, fun j hj b hb => ?_⟩
  · exact Chain.run_out (fun hmem => latch_not_mem_flushShifts _ _ (List.mem_of_mem_take hmem)) _ _
  · rw [Chain.run_append, Chain.run_append]
    rfl
  · rw [← flushEvents_eq_shifts, h.out_flushEvents hm t.buf hshift]
    exact serialOut_reverse_getElem? t.buf hj hb

end Sys2Proof.Machine
end

section
/-! SUPPORT. The commands of the input path (spec/41_input_path.md R101, R106): their words, and what a refresh and a
READBIT leave where they succeed. -/

namespace Sys2Proof

theorem decode_eq_refresh_iff (w : Word) : decode w = .ok .refresh ↔ w = 0x40000000#32 := by
  have hmask : w &&& 0xFFFFFFFF#32 = w := BitVec.and_allOnes
  simp [decode_eq_ok_iff_row, opcodeMap, hmask]

theorem decode_eq_readbit_iff (w : Word) (idx : Index) :
    decode w = .ok (.readbit idx) ↔ w &&& 0xFFFF0000#32 = 0x50000000#32 ∧ w.extractLsb' 0 16 = idx := by
  simp [decode_eq_ok_iff_row, opcodeMap, indexField]

end Sys2Proof

namespace Sys2Proof.Machine

/-- R100: a refresh leaves LATCH an input, in the modes that accept one. -/
theorem State.Inv.refresh_latch_in {s : State} (h : s.Inv) (hm : s.straps.mode ≠ .output) :
    s.refresh.dir.latch = .input := by
  have hlatch := h.latch_dir
  rw [State.refresh_dir]
  cases hmode : s.straps.mode with
  | output => exact absurd hmode hm
  | input =>
    rw [hmode] at hlatch
    exact hlatch
  | dual => rfl

/-- Settles O22, from the two outcomes of the mode check and the buffer a refresh captures. -/
theorem refreshCapturesTheInput : Obligations.RefreshCapturesTheInput := by
  refine fun s => ⟨decode_eq_refresh_iff, fun hm => ?_, fun hm hbuf => ?_⟩
  · exact exec_of_mode_rejected (by simpa [not_acceptsInput] using hm)
  · refine ⟨captured s.buf s.inbit (8 * s.straps.chainLength), ?_, fun t => serialOut_captured hbuf s.inbit,
      fun a => read_captured_of_le hbuf s.inbit, fun h t ht => ?_⟩
    · rw [exec_refresh_ok hm, State.refresh_eq]
      rfl
    · obtain rfl := Host.Outcome.next.inj ((exec_refresh_ok hm).symm.trans ht)
      exact h.refresh_latch_in hm

/-- R105: the value the counter restarts at, as a word. -/
theorem restart_eq_ofNat {c : Straps} (h : c.legal = true) :
    (BitVec.ofNat 16 c.chainLength <<< 3) - 1#16 = BitVec.ofNat 16 (8 * c.chainLength - 1) := by
  obtain ⟨h1, h2⟩ := Straps.legal_iff.1 h
  apply BitVec.eq_of_toNat_eq
  rw [restart_toNat h1 h2, BitVec.toNat_ofNat, Nat.mod_eq_of_lt (by omega)]

/-- R105: counting down, as a word. -/
theorem sub_one_eq_ofNat {c : BitVec 16} (h : c ≠ 0#16) : c - 1#16 = BitVec.ofNat 16 (c.toNat - 1) := by
  rw [← (toNat_sub_one h).2, BitVec.ofNat_toNat, BitVec.setWidth_eq]

/-- Settles O23: a check fails, or the counter has run down and READBIT refreshes, or it counts down. -/
theorem readbitFollowsTheCounter : Obligations.ReadbitFollowsTheCounter := by
  refine fun s idx => ⟨fun w => decode_eq_readbit_iff w idx, fun hm => ?_, fun hm hr => ?_,
    fun hm hr hl hc hbuf => ?_, fun hm hr hc => ?_⟩
  · exact exec_of_mode_rejected (by simpa [not_acceptsInput] using hm)
  · exact exec_of_index_out_of_range (by simpa [acceptsInput_iff] using hm) rfl hr
  · refine ⟨captured s.buf s.inbit (8 * s.straps.chainLength), ?_, fun t => serialOut_captured hbuf s.inbit,
      fun a => read_captured_of_le hbuf s.inbit⟩
    rw [exec_readbit_ok hm hr, State.countRead_of_zero hc, State.refresh_eq, restart_eq_ofNat hl, ← responseWord_ok]
    rfl
  · rw [exec_readbit_of_ne hm hr hc, sub_one_eq_ofNat hc, ← responseWord_ok]
    rfl

end Sys2Proof.Machine
end

section
/-! SUPPORT. The laws of the input path (spec/41_input_path.md R107; spec/70_reset_and_hazards.md R159): the bytes a
refresh captures, the staged bits it overwrites, and how often READBIT refreshes. -/

namespace Sys2Proof.Machine

/-- R43: the samples of a refresh are the bits of the buffer it leaves, in serial order. -/
theorem serialOut_refresh {s : State} (hbuf : s.buf.wf) :
    (List.range (8 * s.straps.chainLength)).map s.inbit =
      (List.range (8 * s.straps.chainLength)).map (serialOut s.refresh.buf) := by
  rw [State.refresh_buf]
  exact List.map_congr_left fun t ht => (serialOut_captured hbuf s.inbit (List.mem_range.1 ht)).symm

/-- Settles O28: the samples are the new buffer's bits in serial order, and a group of eight of those is a byte. -/
theorem refreshRoundTrip : Obligations.RefreshRoundTrip := by
  refine fun s hm hbuf => ⟨_, _, exec_refresh_ok hm, s.refresh_trace, ?_, fun i hi => ?_⟩
  · simp [sampledValues_refreshEvents]
  · rw [sampledValues_refreshEvents, serialOut_refresh hbuf]
    exact msbFirst_serialGroup s.refresh.buf hi

/-- A byte that is not listed holds the reset value. -/
theorem Memory.read_of_not_listed {m : Memory} {a : Nat} (h : ∀ c ∈ m, c.1 ≠ a) : Memory.read m a = resetByte := by
  induction m with
  | nil => rfl
  | cons c rest ih =>
    rw [Memory.read, if_neg (h c List.mem_cons_self)]
    exact ih fun d hd => h d (List.mem_cons_of_mem _ hd)

/-- R100: a whole scan of `n` bytes leaves nothing of what a buffer of `n` bytes held. -/
theorem captured_eq_of_within {m m' : Memory} {n : Nat} (hm : m.wf) (hm' : m'.wf) (h : ∀ c ∈ m, c.1 < n)
    (h' : ∀ c ∈ m', c.1 < n) (inbits : Nat → Bit) : captured m inbits (8 * n) = captured m' inbits (8 * n) := by
  have hwf := wf_captured hm inbits (8 * n)
  have hwf' := wf_captured hm' inbits (8 * n)
  refine Memory.ext_bit hwf hwf' fun a k hk => ?_
  rw [bit_captured hm inbits _ a k hk, bit_captured hm' inbits _ a k hk]
  by_cases ha : a < n
  · rw [if_pos (by omega), if_pos (by omega)]
  · have hread : m.read a = resetByte := Memory.read_of_not_listed fun c hc => by have := h c hc; omega
    have hread' : m'.read a = resetByte := Memory.read_of_not_listed fun c hc => by have := h' c hc; omega
    rw [Memory.bit, Memory.bit, hread, hread']

/-- Every command keeps the invariant, so every sequence of commands does. -/
theorem State.Inv.of_execAll {s t : State} (h : s.Inv) {is : List Instr} (ht : execAll is s = .next t) : t.Inv := by
  induction is generalizing s with
  | nil => exact Host.Outcome.next.inj ht ▸ h
  | cons i is ih =>
    obtain ⟨u, hu⟩ := exec_next i s
    exact ih (h.of_exec hu) ((execAll_cons hu is).symm.trans ht)

/-- R159: from two states that differ in the bits of the buffer and in the responses, a refresh leaves states that
differ in the responses alone. -/
theorem State.Inv.refresh_overwrites {s : State} (h : s.Inv) {b : Memory} {rs : List Word}
    (h' : State.Inv { s with buf := b, responses := rs }) :
    State.refresh { s with buf := b, responses := rs } = { s.refresh with responses := rs } := by
  have hbuf := captured_eq_of_within h'.buf_wf h.buf_wf h'.buf_within h.buf_within s.inbit
  rw [State.refresh_eq, State.refresh_eq, ← hbuf]
  rfl

/-- Settles O36: the SETs touch the buffer and the responses, and the refresh overwrites the one. -/
theorem refreshOverwritesStagedBits : Obligations.RefreshOverwritesStagedBits := by
  intro is s h hm his
  have hin : s.straps.mode ≠ .output := by simp [hm]
  obtain ⟨b, rs, hsets⟩ := execAll_sets_frame his s
  have hrefresh := exec_refresh_ok (s := { s with buf := b, responses := rs }) hin
  rw [h.refresh_overwrites (h.of_execAll hsets)] at hrefresh
  have hall : execAll (is ++ [.refresh]) s =
      .next (({ s.refresh with responses := rs } : State).answer .ok false) := by
    rw [execAll_append, hsets]
    exact execAll_cons hrefresh []
  exact ⟨_, _, hall, exec_refresh_ok hin, rfl⟩

/-- A controller whose READBITs count (R104): legal straps, a mode that accepts them, and the counter in its range. -/
structure State.Counting (s : State) : Prop where
  straps_legal : s.straps.legal = true
  mode_ne : s.straps.mode ≠ .output
  cnt_lt : s.cnt.toNat < 8 * s.straps.chainLength

/-- The counter went `reads` steps down its cycle of 8N values, from that of `s` to that of `t`. -/
structure CountedDown (reads : Nat) (s t : State) : Prop where
  straps_eq : t.straps = s.straps
  counting : t.Counting
  cycle : t.cnt.toNat + reads ≡ s.cnt.toNat [MOD 8 * s.straps.chainLength]

theorem CountedDown.refl {s : State} (h : s.Counting) : CountedDown 0 s s := ⟨rfl, h, rfl⟩

theorem CountedDown.trans {m n : Nat} {s t u : State} (h : CountedDown m s t) (h' : CountedDown n t u) :
    CountedDown (m + n) s u where
  straps_eq := h'.straps_eq.trans h.straps_eq
  counting := h'.counting
  cycle := by
    have hcycle := h'.cycle
    rw [h.straps_eq] at hcycle
    rw [Nat.add_comm m, ← Nat.add_assoc]
    exact (hcycle.add_right m).trans h.cycle

/-- No command changes the straps (R34). -/
theorem exec_straps {i : Instr} {s t : State} (ht : exec i s = .next t) : t.straps = s.straps := by
  obtain ⟨u, hu, hstraps, -⟩ := commandsKeepStrapsAndDirections i s
  rwa [Host.Outcome.next.inj (ht.symm.trans hu)]

/-- A command keeps the straps, so where it moves the counter down its cycle the next READBIT counts on from there. -/
theorem State.Counting.of_exec {s t : State} (h : s.Counting) {i : Instr} (ht : exec i s = .next t) {reads : Nat}
    (hlt : t.cnt.toNat < 8 * s.straps.chainLength)
    (hcycle : t.cnt.toNat + reads ≡ s.cnt.toNat [MOD 8 * s.straps.chainLength]) : CountedDown reads s t :=
  have hstraps := exec_straps ht
  ⟨hstraps, ⟨hstraps ▸ h.straps_legal, hstraps ▸ h.mode_ne, hstraps ▸ hlt⟩, hcycle⟩

/-- R104, R106: a READBIT moves the counter one step down its cycle, from 0 to 8N - 1 and else by one. -/
theorem State.Counting.exec_readbit {s : State} (h : s.Counting) {idx : Index}
    (hr : idx.toNat < 8 * s.straps.chainLength) : ∃ t, exec (.readbit idx) s = .next t ∧ CountedDown 1 s t := by
  obtain ⟨t, ht, -, hzero, hdown, hle⟩ := counterNeverWraps s idx h.straps_legal h.cnt_lt h.mode_ne hr
  refine ⟨t, ht, h.of_exec ht (by omega) ?_⟩
  by_cases hc : s.cnt = 0#16
  · have hsum : t.cnt.toNat + 1 = 8 * s.straps.chainLength := by have := hzero hc; omega
    rw [hsum, hc]
    exact Nat.modEq_zero_iff_dvd.2 dvd_rfl
  · have hsum : t.cnt.toNat + 1 = s.cnt.toNat := by have := hdown hc; omega
    rw [hsum]

/-- R24: any other command leaves the counter where it is, whatever it answers. -/
theorem State.Counting.exec_other {s : State} (h : s.Counting) {i : Instr} (hi : Instr.isRead i = false) :
    ∃ t, exec i s = .next t ∧ CountedDown 0 s t := by
  obtain ⟨t, ht, hcnt⟩ := onlyReadbitChangesTheCounter i s (.inl hi)
  exact ⟨t, ht, h.of_exec ht (by rw [hcnt]; exact h.cnt_lt) (by rw [hcnt]; rfl)⟩

/-- A sequence of commands, its READBITs in range, moves the counter one step down its cycle for each READBIT. -/
theorem State.Counting.execAll {is : List Instr} {s : State} (h : s.Counting)
    (hfits : ∀ i ∈ is, Instr.isRead i = true → Instr.indexFits i s.straps.chainLength) :
    ∃ t, execAll is s = .next t ∧ CountedDown (is.countP Instr.isRead) s t := by
  induction is generalizing s with
  | nil => exact ⟨s, rfl, .refl h⟩
  | cons i is ih =>
    have hstep : ∃ t, exec i s = .next t ∧ CountedDown ([i].countP Instr.isRead) s t := by
      cases i with
      | readbit idx => exact h.exec_readbit (hfits _ List.mem_cons_self rfl idx rfl)
      | _ => exact h.exec_other rfl
    obtain ⟨t, ht, hcounted⟩ := hstep
    obtain ⟨u, hu, hrest⟩ := ih hcounted.counting fun j hj => by
      rw [hcounted.straps_eq]; exact hfits j (List.mem_cons_of_mem _ hj)
    refine ⟨u, (execAll_cons ht is).trans hu, ?_⟩
    rw [← List.singleton_append, List.countP_append]
    exact hcounted.trans hrest

/-- The counter has run down exactly when the READBITs are, but for whole cycles, as many as it started from. -/
theorem CountedDown.cnt_eq_zero_iff {reads : Nat} {s t : State} (h : CountedDown reads s t) :
    t.cnt = 0#16 ↔ reads ≡ s.cnt.toNat [MOD 8 * s.straps.chainLength] := by
  have hcycle := h.cycle
  constructor
  · intro hzero
    rwa [hzero, BitVec.toNat_zero, Nat.zero_add] at hcycle
  · intro hreads
    have hlt : t.cnt.toNat < 8 * s.straps.chainLength := h.straps_eq ▸ h.counting.cnt_lt
    have hsum : t.cnt.toNat + reads ≡ 0 + reads [MOD 8 * s.straps.chainLength] := by
      rw [Nat.zero_add]
      exact hcycle.trans hreads.symm
    have hzero := Nat.ModEq.add_right_cancel' reads hsum
    exact BitVec.eq_of_toNat_eq (Nat.ModEq.eq_of_lt_of_lt hzero hlt (Nat.zero_lt_of_lt hlt))

/-- R107 (a): `k` is `c` but for whole cycles of `n` exactly when the READBIT after `k` others is number c+1, or number
c+1+n·m for some m ≥ 1. -/
theorem modEq_iff_cadence {k c n : Nat} (hc : c < n) :
    k ≡ c [MOD n] ↔ k + 1 = c + 1 ∨ ∃ m ≥ 1, k + 1 = c + 1 + n * m := by
  constructor
  · intro h
    have hdiv := Nat.mod_add_div k n
    rw [Nat.mod_eq_of_modEq h hc] at hdiv
    rcases Nat.eq_zero_or_pos (k / n) with hzero | hpos
    · rw [hzero, Nat.mul_zero] at hdiv
      exact .inl (by omega)
    · exact .inr ⟨k / n, hpos, by omega⟩
  · rintro (h | ⟨m, -, h⟩)
    · rw [Nat.succ.inj h]
    · obtain rfl : k = c + n * m := by omega
      simp [Nat.ModEq]

/-- Settles O37: a READBIT refreshes where the counter has run down, and the READBITs before it say where that is. -/
theorem refreshCadence : Obligations.RefreshCadence := by
  intro is s idx hl hm hc hfits hr
  have hs : s.Counting := ⟨hl, hm, hc⟩
  obtain ⟨t, ht, hcounted⟩ := hs.execAll hfits
  have hread := exec_readbit_ok (s := t) (idx := idx) hcounted.counting.mode_ne (by rwa [hcounted.straps_eq])
  rw [← modEq_iff_cadence hc, ← hcounted.cnt_eq_zero_iff]
  refine ⟨t, _, ht, hread, fun hzero => ?_, fun hne => ?_⟩
  · rw [State.answer_trace, State.countRead_trace, if_pos hzero, hcounted.straps_eq]
  · rw [State.answer_trace, State.countRead_trace, if_neg hne, List.append_nil]

end Sys2Proof.Machine
end

section
/-! SUPPORT. The errors (spec/60_exceptions.md R121 to R125): which check gives each status, that the response of a word
tells its status, and what a word can do. -/

namespace Sys2Proof.Machine

/-- R121: a step whose next move is an illegal word answers ERR_ILLEGAL, on the state without that move (log 2). -/
theorem step_of_illegal_command {s : State} {w : Word} {rest : List HostMove} {e : DecodeError}
    (hs : s.straps.legal = true) (hmoves : s.moves = .command w :: rest) (hw : decode w = .error e) :
    step s = .next (State.answer .errIllegal false { s with moves := rest }) := by
  rw [step_of_legal hs, nextMove, hmoves]
  exact runWord_of_illegal hw _

/-- Settles O9: the answer is the response 0x00000003. -/
theorem illegalWordAnswersErrIllegal : Obligations.IllegalWordAnswersErrIllegal :=
  fun _ _ _ _ => step_of_illegal_command

/-- R71: two statuses have two codes. -/
theorem Status.code_injective : Function.Injective Status.code := by
  intro st st'
  cases st <;> cases st' <;> decide

/-- R70: the response of a word tells its status. -/
theorem responseWord_ne {st st' : Status} (h : st ≠ st') (b b' : Bit) : responseWord st b ≠ responseWord st' b' := by
  intro heq
  obtain ⟨-, -, -, hcode⟩ := responseWord_fields st b
  obtain ⟨-, -, -, hcode'⟩ := responseWord_fields st' b'
  exact h (Status.code_injective (hcode.symm.trans (heq ▸ hcode')))

/-- R122: the mode check gives ERR_MODE, and no other check does. -/
theorem commandStatus_eq_errMode_iff (i : Instr) (c : Straps) :
    commandStatus i c = .errMode ↔ modeTable i c.mode = false := by
  unfold commandStatus
  split_ifs <;> simp [*]

/-- R123, R124: the range check, which comes after the mode check, gives ERR_RANGE. -/
theorem commandStatus_eq_errRange_iff (i : Instr) (c : Straps) :
    commandStatus i c = .errRange ↔ modeTable i c.mode = true ∧ ¬ Instr.indexFits i c.chainLength := by
  unfold commandStatus Instr.indexFits
  cases hm : modeTable i c.mode <;> cases Instr.index? i <;> simp

/-- R122 to R124: a command answers the status that its checks give. -/
theorem exec_answers_status (i : Instr) (s : State) :
    ∃ t b, exec i s = .next t ∧ t.responses = s.responses ++ [responseWord (commandStatus i s.straps) b] := by
  by_cases hok : commandStatus i s.straps = .ok
  · exact ⟨_, _, exec_of_ok hok, by rw [hok, State.answer_responses, commandEffect_responses]⟩
  · exact ⟨_, _, exec_of_error hok, State.answer_responses _ _ _⟩

/-- A command answers no status but the one that its checks give. -/
theorem exec_answers_ne {i : Instr} {s : State} {st : Status} (h : commandStatus i s.straps ≠ st) (b : Bit) :
    ∃ t, exec i s = .next t ∧ t.responses ≠ s.responses ++ [responseWord st b] := by
  obtain ⟨t, b', hnext, hresponses⟩ := exec_answers_status i s
  refine ⟨t, hnext, fun hst => responseWord_ne h b' b ?_⟩
  simpa using hresponses.symm.trans hst

/-- Settles O10: the mode check is the table of R122, and ERR_MODE comes from it alone. -/
theorem modeTableDecides : Obligations.ModeTableDecides := by
  refine fun i s => ⟨exec_of_mode_rejected, fun haccepted => exec_answers_ne (st := .errMode) ?_ false⟩
  simp [commandStatus_eq_errMode_iff, haccepted]

/-- Settles O11: an index outside the chain fails the range check, and ERR_RANGE comes from it alone. -/
theorem outOfRangeIsRejected : Obligations.OutOfRangeIsRejected := by
  refine fun i s => ⟨fun idx hidx haccepted hout => exec_of_index_out_of_range haccepted hidx hout,
    fun hfits => exec_answers_ne (st := .errRange) ?_ false⟩
  simp [commandStatus_eq_errRange_iff, hfits]

/-- R123: a command that the mode accepts answers ERR_RANGE where its index does not fit. -/
theorem exec_of_index_misfit {i : Instr} {s : State} (hm : modeTable i s.straps.mode = true)
    (h : ¬ Instr.indexFits i s.straps.chainLength) : exec i s = .next (s.answer .errRange false) := by
  have hstatus := (commandStatus_eq_errRange_iff i s.straps).2 ⟨hm, h⟩
  have herror : commandStatus i s.straps ≠ .ok := by simp [hstatus]
  rw [exec_of_error herror, hstatus]

/-- What a word can do: it answers an error and changes nothing else, or it is that of a command whose checks pass. -/
theorem runWord_outcomes (w : Word) (s : State) :
    (∃ st, st ≠ .ok ∧ runWord w s = .next (s.answer st false)) ∨
    (∃ i, decode w = .ok i ∧ commandStatus i s.straps = .ok ∧
      runWord w s = .next ((commandEffect i s).answer .ok (commandRdata i (commandEffect i s)))) := by
  cases hw : decode w with
  | error e => exact .inl ⟨.errIllegal, by decide, runWord_of_illegal hw s⟩
  | ok i =>
    rw [runWord_of_decode hw]
    by_cases hok : commandStatus i s.straps = .ok
    · exact .inr ⟨i, rfl, hok, exec_of_ok hok⟩
    · exact .inl ⟨_, hok, exec_of_error hok⟩

/-- Settles O12: the decoder comes first, then the mode check, then the range check. -/
theorem errorPrecedence : Obligations.ErrorPrecedence := by
  intro w s
  cases hw : decode w with
  | error e => exact ⟨_, false, runWord_of_illegal hw s, State.answer_responses _ _ _⟩
  | ok i =>
    rw [runWord_of_decode hw]
    by_cases hmode : modeTable i s.straps.mode = false
    · exact ⟨_, false, exec_of_mode_rejected hmode, by simp [hmode]⟩
    · have haccepted : modeTable i s.straps.mode = true := by simpa using hmode
      by_cases hfits : Instr.indexFits i s.straps.chainLength
      · have hok := (commandStatus_ok_iff i s.straps).2 ⟨haccepted, hfits⟩
        exact ⟨_, commandRdata i (commandEffect i s), exec_of_ok hok, by simp [haccepted, hfits]⟩
      · exact ⟨_, false, exec_of_index_misfit haccepted hfits, by simp [haccepted, hfits]⟩

/-- Settles O13: of the two things that a word can do, an error has a response that is not an OK, and a command's effect
appends all of its events. -/
theorem errorsArePrecise : Obligations.ErrorsArePrecise := by
  intro w s t ht
  obtain ⟨st, hst, herror⟩ | ⟨i, hw, -, hok⟩ := runWord_outcomes w s
  · obtain rfl := Host.Outcome.next.inj (herror.symm.trans ht)
    refine ⟨fun _ => rfl, fun ⟨b, hb⟩ => ?_⟩
    exact absurd (by simpa using hb) (responseWord_ne_ok hst b)
  · obtain rfl := Host.Outcome.next.inj (hok.symm.trans ht)
    refine ⟨fun h => absurd (by simp) (h (commandRdata i (commandEffect i s))), fun _ => ⟨i, hw, ?_⟩⟩
    rw [State.answer_trace, commandEffect_trace]
    cases i with
    | write idx v => simp [commandEvents, commandEffect]
    | _ => rfl

end Sys2Proof.Machine
end

section
/-! SUPPORT. A reset that cuts a command (spec/70_reset_and_hazards.md R152): what it leaves, for every command word and
every number of events that the command had emitted. -/

namespace Sys2Proof.Machine

/-- A command word only adds events to the trace (R31). -/
theorem runWord_appends_trace (w : Word) (s : State) :
    ∃ done es, runWord w s = .next done ∧ done.trace = s.trace ++ es := by
  obtain ⟨st, -, herror⟩ | ⟨i, -, -, hok⟩ := runWord_outcomes w s
  · exact ⟨_, [], herror, by simp⟩
  · exact ⟨_, commandEvents i s, hok, by simp⟩

/-- What stands of a command, whose events are `es`, that a reset cuts after `k` of them. -/
theorem State.cutShort_eq {s done : State} {es : List Event} (h : done.trace = s.trace ++ es) (k : Nat) :
    s.cutShort done k =
      { s.takeDraws ((es.take k).countP Event.isSample) with trace := s.trace ++ es.take k } := by
  simp [State.cutShort, h]

/-- A step whose next move is a reset during a command, on the state without that move (log 2). -/
theorem step_of_resetDuring {s : State} {w : Word} {k : Nat} {c : Straps} {rest : List HostMove}
    (hs : s.straps.legal = true) (hmoves : s.moves = .resetDuring w k c :: rest) :
    step s = resetDuring w k c { s with moves := rest } := by
  rw [step_of_legal hs, nextMove, hmoves]

/-- The state of R38 after a reset that took the straps `c` when the command at hand had emitted the events `pre`: the ended
run shows them and no response to the command (log 5), and the draws their samples took stay taken (log 8). -/
def State.resetCutting (pre : List Event) (c : Straps) (s : State) : State :=
  { State.afterReset c with
    earlier := s.earlier ++ [{ straps := s.straps, responses := s.responses, trace := s.trace ++ pre }]
    moves := s.moves
    injected := s.injected.drop (pre.countP Event.isSample)
    draws := s.draws + pre.countP Event.isSample }

/-- A reset that cuts a command, whose events are `es`, shows the first `k` of them. -/
theorem resetDuring_of_legal {w : Word} {c : Straps} {s done : State} {es : List Event} (hc : c.legal = true)
    (hrun : runWord w s = .next done) (htrace : done.trace = s.trace ++ es) (k : Nat) :
    resetDuring w k c s = .next (s.resetCutting (es.take k) c) := by
  have hreset := resetWith_of_legal hc (s.cutShort done k)
  rw [State.cutShort_eq htrace] at hreset
  simp only [resetDuring, hrun, State.cutShort_eq htrace]
  exact hreset

/-- Settles O17: a reset after `k` events shows the first `k`, and an initial part of the events is shown by a reset after as
many events as it has. -/
theorem resetDuringCommandLeavesAPrefix : Obligations.ResetDuringCommandLeavesAPrefix := by
  intro s w c rest hs hc
  obtain ⟨done, es, hrun, htrace⟩ := runWord_appends_trace w { s with moves := rest }
  refine ⟨done, es, hrun, htrace, fun k hmoves => ?_, fun pre hpre => ?_⟩
  · have hstep := (step_of_resetDuring hs hmoves).trans (resetDuring_of_legal hc hrun htrace k)
    exact ⟨_, es.take k, hstep, List.take_prefix k es, rfl⟩
  · obtain ⟨post, rfl⟩ := hpre
    have hstep := (step_of_resetDuring (s := { s with moves := .resetDuring w pre.length c :: rest }) hs rfl).trans
      (resetDuring_of_legal hc hrun htrace pre.length)
    rw [List.take_left] at hstep
    exact ⟨pre.length, _, hstep, rfl⟩

end Sys2Proof.Machine
end

section
/-! SUPPORT. The idle controller (spec/60_exceptions.md R134, R143): all of its state survives between commands. -/

namespace Sys2Proof.Machine

/-- With no move of the host left, the controller stays as it is (log 3). -/
theorem nextMove_of_moves_nil {s : State} (hmoves : s.moves = []) : nextMove s = .next s := by
  rw [nextMove, hmoves]

/-- Settles O15: with legal straps a step is the host's next move, and there is none. -/
theorem stepWithoutMoveIsIdle : Obligations.StepWithoutMoveIsIdle := by
  intro s hs hmoves
  rw [step_of_legal hs]
  exact nextMove_of_moves_nil hmoves

end Sys2Proof.Machine
end
